-- ==== Sys2Proof/Word.lean ====
section
/-! DEFINITION. The widths of the block's signals (00_scope.md R5): a 32-bit word, numbered from bit 0, its least
significant bit (R6), and the widths of the fields cut from it. -/

namespace Sys2Proof

/-- A byte of an instruction memory; the block never sees one (20_memory.md R30). -/
abbrev Byte := BitVec 8

/-- The instruction word, and the width of `immediate` (R5: word width 32, XLEN 32). -/
abbrev Word := BitVec 32

/-- The 7-bit primary opcode field, raw[6:0] (R5). -/
abbrev OpField := BitVec 7

/-- A 5-bit unsigned register index (R5, 10_state.md R18). -/
abbrev RegIndex := BitVec 5

/-- The function field raw[14:12] (R5, 10_state.md R19). -/
abbrev Funct3 := BitVec 3

/-- The function field raw[31:25] (R5, 10_state.md R19). -/
abbrev Funct7 := BitVec 7

end Sys2Proof
end

