-- ==== Sys2Proof/Config.lean ====
section
/-! DEFINITION. The parameters the spec leaves OPEN that touch the block's input. Every parameter of the block itself has
a fixed value (00_scope.md R5) and is a width in Word.lean. No result of the block is undefined
(93_implementation_defined.md Part 1), so there is no free value here. -/

namespace Sys2Proof

/-- The byte order of instruction memory, `fetchByteOrder`: OPEN, a parameter of the surrounding fetch stage
(20_memory.md R30, 92_eei_decisions.md D9). The model takes it as an argument wherever bytes are turned into a word;
the block sees a word and no rule of it depends on this. -/
inductive ByteOrder where
  /-- the lowest address holds bits [7:0] -/
  | little
  /-- the lowest address holds bits [31:24] -/
  | big
  deriving DecidableEq, Repr

end Sys2Proof
end

