-- ==== Sys2Proof/Syntax.lean ====
section
/-! DEFINITION. The closed enumerations of the spec (OpcodeClass, the six formats), the fixed fields of a word, and
`Instr`, one constructor per row of spec/opcode_table.json. -/

namespace Sys2Proof

/-- The opcode class: "closed enumeration, 11 variants" (10_state.md R17, 30_encoding.md R40). The constructors are
spelled as the spec spells them. -/
inductive OpcodeClass where
  | LUI | AUIPC | JAL | JALR | BRANCH | LOAD | STORE | OP_IMM | OP | SYSTEM | INVALID
  deriving DecidableEq, Repr

/-- The six RISC-V base encoding layouts (30_encoding.md R39). -/
inductive Format where
  | R | I | S | B | U | J
  deriving DecidableEq, Repr

/-- The five fixed fields above the primary opcode (30_encoding.md R37). They are cut from every word whatever its
class: "fields not semantically used by a given format still hold the extracted bits" (10_state.md R18, R19). -/
structure Fields where
  /-- raw[11:7] -/
  rd     : RegIndex
  /-- raw[14:12] -/
  funct3 : Funct3
  /-- raw[19:15] -/
  rs1    : RegIndex
  /-- raw[24:20] -/
  rs2    : RegIndex
  /-- raw[31:25] -/
  funct7 : Funct7
  deriving DecidableEq, Repr

/-- An instruction of the block: its opcode class and the fixed fields of its word. A known class has exactly one
primary opcode (30_encoding.md R42), so the class and the fields are the whole word; `invalid` carries its opcode field
beside them. The immediate is no operand of its own: it is an output, assembled from these bits (R43-R47).
DESIGN CHOICE (log entry 5), safe. -/
inductive Instr where
  /-- row LUI, raw[6:0] = 0x37 (41_u_type.md R61) -/
  | lui (f : Fields)
  /-- row AUIPC, raw[6:0] = 0x17 (41_u_type.md R62) -/
  | auipc (f : Fields)
  /-- row JAL, raw[6:0] = 0x6F (42_j_type.md R63) -/
  | jal (f : Fields)
  /-- row JALR, raw[6:0] = 0x67 (45_i_type.md R67) -/
  | jalr (f : Fields)
  /-- row BRANCH, raw[6:0] = 0x63 (43_b_type.md R64) -/
  | branch (f : Fields)
  /-- row LOAD, raw[6:0] = 0x03 (45_i_type.md R66) -/
  | load (f : Fields)
  /-- row STORE, raw[6:0] = 0x23 (44_s_type.md R65) -/
  | store (f : Fields)
  /-- row OP_IMM, raw[6:0] = 0x13 (45_i_type.md R68) -/
  | opImm (f : Fields)
  /-- row OP, raw[6:0] = 0x33 (46_r_type_and_invalid.md R70) -/
  | op (f : Fields)
  /-- row SYSTEM, raw[6:0] = 0x73 (45_i_type.md R69) -/
  | system (f : Fields)
  /-- row INVALID, raw[6:0] = `opfield`, any of the other 118 values (46_r_type_and_invalid.md R71) -/
  | invalid (opfield : OpField) (f : Fields)
  deriving DecidableEq, Repr

end Sys2Proof
end

