-- ==== Sys2Proof/WellFormed.lean ====
section
/-! DEFINITION. Which terms of `Instr` are instructions: the one check a type does not make already is that an `invalid`
carries an opcode field that is not a known one (46_r_type_and_invalid.md R71). -/

namespace Sys2Proof

/-- The ten known opcodes, the values of raw[6:0] in the table of 30_encoding.md R40. -/
def knownOpcodes : List OpField :=
  [0x37#7, 0x17#7, 0x6F#7, 0x67#7, 0x63#7, 0x03#7, 0x23#7, 0x13#7, 0x33#7, 0x73#7]

/-- The well-formedness check. The field widths are in the types, and no funct or register value is illegal
(30_encoding.md R49), so every instruction of a known class is well formed. -/
def Instr.wf : Instr → Bool
  | .lui _ => true
  | .auipc _ => true
  | .jal _ => true
  | .jalr _ => true
  | .branch _ => true
  | .load _ => true
  | .store _ => true
  | .opImm _ => true
  | .op _ => true
  | .system _ => true
  | .invalid opfield _ => !knownOpcodes.contains opfield

end Sys2Proof
end

