-- ==== Sys2Proof/Decode.lean ====
section
/-! DEFINITION. The decoder: field extraction (30_encoding.md R37), classification (R40), and the instruction a word is.
Then the encoder, written from the same tables, and the fetch stage's side, bytes to word, under either byte order. -/

namespace Sys2Proof

/-! ### Field extraction (30_encoding.md R37) -/

/-- `opfield(raw) := raw[6:0]`. -/
def opfieldOf (raw : Word) : OpField := raw.extractLsb' 0 7

/-- `rd(raw) := raw[11:7]`. -/
def rdOf (raw : Word) : RegIndex := raw.extractLsb' 7 5

/-- `funct3(raw) := raw[14:12]`. -/
def funct3Of (raw : Word) : Funct3 := raw.extractLsb' 12 3

/-- `rs1(raw) := raw[19:15]`. -/
def rs1Of (raw : Word) : RegIndex := raw.extractLsb' 15 5

/-- `rs2(raw) := raw[24:20]`. -/
def rs2Of (raw : Word) : RegIndex := raw.extractLsb' 20 5

/-- `funct7(raw) := raw[31:25]`. -/
def funct7Of (raw : Word) : Funct7 := raw.extractLsb' 25 7

/-- The five fixed fields of a word, extracted whatever its class (R37, 10_state.md R18, R19). -/
def Fields.ofWord (raw : Word) : Fields where
  rd := rdOf raw
  funct3 := funct3Of raw
  rs1 := rs1Of raw
  rs2 := rs2Of raw
  funct7 := funct7Of raw

/-! ### Classification and decoding (30_encoding.md R40, R42) -/

/-- The classification table of R40: ten known opcodes, every other value `INVALID`. -/
def classify (opfield : OpField) : OpcodeClass :=
  match opfield with
  | 0x37#7 => .LUI
  | 0x17#7 => .AUIPC
  | 0x6F#7 => .JAL
  | 0x67#7 => .JALR
  | 0x63#7 => .BRANCH
  | 0x03#7 => .LOAD
  | 0x23#7 => .STORE
  | 0x13#7 => .OP_IMM
  | 0x33#7 => .OP
  | 0x73#7 => .SYSTEM
  | _ => .INVALID

/-- The instruction a word is. Total on all 2^32 words (40_decode.md R57): the class of raw[6:0] and the fixed fields,
for every class the same (R40, R37). A word no known opcode matches is an `invalid`, which is data and no rejection
(46_r_type_and_invalid.md R71). -/
def decode (raw : Word) : Instr :=
  match classify (opfieldOf raw) with
  | .LUI => .lui (Fields.ofWord raw)
  | .AUIPC => .auipc (Fields.ofWord raw)
  | .JAL => .jal (Fields.ofWord raw)
  | .JALR => .jalr (Fields.ofWord raw)
  | .BRANCH => .branch (Fields.ofWord raw)
  | .LOAD => .load (Fields.ofWord raw)
  | .STORE => .store (Fields.ofWord raw)
  | .OP_IMM => .opImm (Fields.ofWord raw)
  | .OP => .op (Fields.ofWord raw)
  | .SYSTEM => .system (Fields.ofWord raw)
  | .INVALID => .invalid (opfieldOf raw) (Fields.ofWord raw)

/-! ### The encoder -/

/-- The word with the given primary opcode and fixed fields, at the bit positions of R37's table, high bits first. -/
def Fields.toWord (f : Fields) (opfield : OpField) : Word :=
  f.funct7 ++ f.rs2 ++ f.rs1 ++ f.funct3 ++ f.rd ++ opfield

/-- The word of an instruction: the opcode of its row of the table (R40), or its own opcode field for `invalid`, under
its fixed fields. -/
def encode : Instr → Word
  | .lui f => f.toWord 0x37#7
  | .auipc f => f.toWord 0x17#7
  | .jal f => f.toWord 0x6F#7
  | .jalr f => f.toWord 0x67#7
  | .branch f => f.toWord 0x63#7
  | .load f => f.toWord 0x03#7
  | .store f => f.toWord 0x23#7
  | .opImm f => f.toWord 0x13#7
  | .op f => f.toWord 0x33#7
  | .system f => f.toWord 0x73#7
  | .invalid opfield f => f.toWord opfield

/-- The opcode class of an instruction, its row of the table. -/
def Instr.opcodeClass : Instr → OpcodeClass
  | .lui _ => .LUI
  | .auipc _ => .AUIPC
  | .jal _ => .JAL
  | .jalr _ => .JALR
  | .branch _ => .BRANCH
  | .load _ => .LOAD
  | .store _ => .STORE
  | .opImm _ => .OP_IMM
  | .op _ => .OP
  | .system _ => .SYSTEM
  | .invalid _ _ => .INVALID

/-- The fixed fields of an instruction. -/
def Instr.fields : Instr → Fields
  | .lui f => f
  | .auipc f => f
  | .jal f => f
  | .jalr f => f
  | .branch f => f
  | .load f => f
  | .store f => f
  | .opImm f => f
  | .op f => f
  | .system f => f
  | .invalid _ f => f

/-! ### The fetch stage's side: bytes to words

The block never sees bytes (20_memory.md R30). What a fetch stage does with them is stated here for both values of the
OPEN parameter `fetchByteOrder` (92_eei_decisions.md D9). -/

/-- Why bytes are no instruction word. Only the byte-level front end rejects; the block rejects no word (R57). -/
inductive DecodeReject where
  /-- Fewer than four bytes: raised by `decodeBytes`. Safe: no word of the block is lost, since it takes 32-bit words
  only (30_encoding.md R38). -/
  | truncated
  deriving DecidableEq, Repr

/-- The word that four bytes at rising addresses make under a byte order. -/
def wordOfBytes (order : ByteOrder) (b0 b1 b2 b3 : Byte) : Word :=
  match order with
  | .little => b3 ++ b2 ++ b1 ++ b0
  | .big => b0 ++ b1 ++ b2 ++ b3

/-- The four bytes of a word at rising addresses under a byte order. -/
def bytesOfWord (order : ByteOrder) (raw : Word) : List Byte :=
  match order with
  | .little => [raw.extractLsb' 0 8, raw.extractLsb' 8 8, raw.extractLsb' 16 8, raw.extractLsb' 24 8]
  | .big => [raw.extractLsb' 24 8, raw.extractLsb' 16 8, raw.extractLsb' 8 8, raw.extractLsb' 0 8]

/-- Decoding from bytes: every instruction is one 32-bit word, with no length decoding (30_encoding.md R38). -/
def decodeBytes (order : ByteOrder) : List Byte → Except DecodeReject (Instr × List Byte)
  | b0 :: b1 :: b2 :: b3 :: rest => .ok (decode (wordOfBytes order b0 b1 b2 b3), rest)
  | _ => .error .truncated

/-! ### The host's numbering of a table row -/

/-- The word of a table row given as a number of `nbits` bits: bit 0 of the number is bit 0 of the word (R6), and every
bit from `nbits` up is 0. -/
def tableWord (nbits w : Nat) : Word := BitVec.ofNat 32 (w % 2 ^ nbits)

/-- The instruction the decoder reads from an opcode-table row's bits. The row is one 32-bit word (30_encoding.md R38),
which the block takes as a value, so no byte order enters; more than 32 bits are no word of this block, and are refused. -/
def decodeTableWord (nbits w : Nat) : Option Instr :=
  if nbits ≤ 32 then some (decode (tableWord nbits w)) else none

end Sys2Proof
end

