-- ==== Sys2Proof/Machine/Operands.lean ====
section
/-! DEFINITION. The operand forms: the five immediate assemblies (30_encoding.md R43-R47), each total on all words, and
the table of which cell of a word each format puts at which bit (R39). The block has no flags (10_state.md R25), so the
package has no flag file. -/

namespace Sys2Proof.Machine

/-- U-type immediate (30_encoding.md R43): `raw[31:12] ++ 0^12`, in place, no extension step (90_conflicts.md C5). -/
def immU (raw : Word) : Word := raw.extractLsb' 12 20 ++ 0#12

/-- J-type immediate (R44): `sext_32(raw[31] ++ raw[19:12] ++ raw[20] ++ raw[30:21] ++ 0^1)`, 21 bits. -/
def immJ (raw : Word) : Word :=
  (raw.extractLsb' 31 1 ++ raw.extractLsb' 12 8 ++ raw.extractLsb' 20 1 ++ raw.extractLsb' 21 10 ++ 0#1).signExtend 32

/-- B-type immediate (R45): `sext_32(raw[31] ++ raw[7] ++ raw[30:25] ++ raw[11:8] ++ 0^1)`, 13 bits. -/
def immB (raw : Word) : Word :=
  (raw.extractLsb' 31 1 ++ raw.extractLsb' 7 1 ++ raw.extractLsb' 25 6 ++ raw.extractLsb' 8 4 ++ 0#1).signExtend 32

/-- S-type immediate (R46): `sext_32(raw[31:25] ++ raw[11:7])`, 12 bits; the forced bits are [31:12] (90_conflicts.md
C1, log entry 7). -/
def immS (raw : Word) : Word := (raw.extractLsb' 25 7 ++ raw.extractLsb' 7 5).signExtend 32

/-- I-type immediate (R47): `sext_32(raw[31:20])`, 12 bits; the forced bits are [31:12] (90_conflicts.md C2, log
entry 7). -/
def immI (raw : Word) : Word := (raw.extractLsb' 20 12).signExtend 32

/-- The immediate of a class with no immediate field: the constant 0, whatever the word (10_state.md R20,
46_r_type_and_invalid.md R70, R71). -/
def immNone (_ : Word) : Word := 0x00000000#32

/-- The number a 32-bit output is read as where a signed number is wanted (00_scope.md R9):
`signed(v) = unsigned(v) - 2^32 * v[31]`, two's complement. The block drives the bits; the reading is the reader's. -/
def signedReading (v : Word) : Int := (v.toNat : Int) - 2 ^ 32 * ((v.getLsbD 31).toNat : Int)

/-- What one bit of a word carries in a format: bit `k` of a fixed field or of the format's immediate before extension. -/
inductive Cell where
  | opcode (k : Nat)
  | rd (k : Nat)
  | funct3 (k : Nat)
  | rs1 (k : Nat)
  | rs2 (k : Nat)
  | funct7 (k : Nat)
  | imm (k : Nat)
  deriving DecidableEq, Repr

/-- The format table of 30_encoding.md R39: what bit `p` of the word carries in a format. The non-immediate cells are the
spec's general knowledge; the block acts on none of them, all six fixed fields are output for every format (R37). -/
def cellOf (fmt : Format) (p : Nat) : Cell :=
  if p ≤ 6 then .opcode p
  else if p ≤ 11 then
    match fmt with
    | .S => .imm (p - 7)
    | .B => if p = 7 then .imm 11 else .imm (p - 7)
    | .R | .I | .U | .J => .rd (p - 7)
  else if p ≤ 14 then
    match fmt with
    | .U | .J => .imm p
    | .R | .I | .S | .B => .funct3 (p - 12)
  else if p ≤ 19 then
    match fmt with
    | .U | .J => .imm p
    | .R | .I | .S | .B => .rs1 (p - 15)
  else if p ≤ 24 then
    match fmt with
    | .R | .S | .B => .rs2 (p - 20)
    | .I => .imm (p - 20)
    | .U => .imm p
    | .J => if p = 20 then .imm 11 else .imm (p - 20)
  else if p ≤ 30 then
    match fmt with
    | .R => .funct7 (p - 25)
    | .I | .S | .B | .J => .imm (p - 20)
    | .U => .imm p
  else
    match fmt with
    | .R => .funct7 6
    | .I | .S => .imm 11
    | .B => .imm 12
    | .U => .imm 31
    | .J => .imm 20

end Sys2Proof.Machine
end

