-- ==== Sys2Proof/Machine/State.lean ====
section
/-! DEFINITION. The state of the machine: the word on the block's input port, and the record the caller holds. The block
"contains no storage element" (10_state.md R13) and has no field here: its outputs are a function of the input port
(`State.out`, Ops.lean). -/

namespace Sys2Proof.Machine

/-- The output record, one field per output port (10_state.md R15). `mnemonicLabel` is no port: it is a function of
`opcode`, computed where it is wanted (40_decode.md R55, `DecodedInstruction.mnemonicLabel`); the record has no format
field either (90_conflicts.md C4). -/
structure DecodedInstruction where
  /-- the original word, passed through (R16) -/
  raw       : Word
  /-- the opcode class (R17) -/
  opcode    : OpcodeClass
  /-- raw[11:7] (R18) -/
  rd        : RegIndex
  /-- raw[19:15] (R18) -/
  rs1       : RegIndex
  /-- raw[24:20] (R18) -/
  rs2       : RegIndex
  /-- raw[14:12] (R19) -/
  funct3    : Funct3
  /-- raw[31:25] (R19) -/
  funct7    : Funct7
  /-- the immediate, 32 bits, read as two's complement where a number is wanted (R20, 00_scope.md R9) -/
  immediate : Word
  deriving DecidableEq, Repr

/-- What stands around the block. The block has no state of its own: a model of it is "a function from the input to the
outputs" (R13), `decodedRecord`, and the values on its output ports are that function of `raw` at every moment
(`State.out`). The host's interface asks for a state type: it holds the caller's side, DESIGN CHOICE (log entry 3). -/
structure State where
  /-- the input port, driven by the caller (R14) -/
  raw : Word
  /-- the record the last call returned to the caller, "constructed and returned by one call; owned solely by the caller"
  (R15); none before the first call. No port and no storage of the block; no step reads it -/
  record : Option DecodedInstruction
  deriving DecidableEq, Repr

/-- What stops the machine with a fault: nothing. "The decoder itself raises no exceptions/panics and returns no
error/result wrapper" (60_exceptions.md R72), so the type has no constructor. -/
inductive Fault where
  deriving DecidableEq, Repr

/-- What the machine refuses. -/
inductive Refusal where
  /-- An instruction of the table with no meaning yet: raised by a refused arm of `exec` only, and no arm is refused.
  Safe. -/
  | notModelled (mnemonic : String)
  deriving DecidableEq, Repr

/-- The machine right after reset. The block has no reset and no value to reset: its outputs are `decode(raw)` of the word
then on its input (70_reset_and_hazards.md R84, `State.out`). The word there is the caller's; the model takes 0x00000000,
DESIGN CHOICE (log entry 1), unsafe. No call has been made yet, so the caller holds no record (log entry 2). -/
def State.reset : State where
  raw := 0x00000000#32
  record := none

end Sys2Proof.Machine
end

