-- ==== Sys2Proof/Machine/ClassInfo.lean ====
section
/-! DEFINITION. The functions of the opcode class: its label (40_decode.md R55), its format (R56), its code on a binary
bus (30_encoding.md R41), the natural width of its immediate (00_scope.md glossary), and the immediate dispatch (R54). -/

namespace Sys2Proof.Machine

/-- The label of a class, its identifier as the spec spells it (40_decode.md R55; 92_eei_decisions.md D4, log entry 8).
Advisory text: no rule reads it. -/
def label : OpcodeClass → String
  | .LUI => "LUI"
  | .AUIPC => "AUIPC"
  | .JAL => "JAL"
  | .JALR => "JALR"
  | .BRANCH => "BRANCH"
  | .LOAD => "LOAD"
  | .STORE => "STORE"
  | .OP_IMM => "OP_IMM"
  | .OP => "OP"
  | .SYSTEM => "SYSTEM"
  | .INVALID => "INVALID"

/-- The record's `mnemonicLabel`: a pure function of `opcode`, recomputed wherever it is wanted (10_state.md R15,
40_decode.md R55). -/
def DecodedInstruction.mnemonicLabel (d : DecodedInstruction) : String := label d.opcode

/-- The format of a class (40_decode.md R56); `INVALID` has none (92_eei_decisions.md D5). -/
def formatOf : OpcodeClass → Option Format
  | .LUI => some .U
  | .AUIPC => some .U
  | .JAL => some .J
  | .BRANCH => some .B
  | .STORE => some .S
  | .LOAD => some .I
  | .JALR => some .I
  | .OP_IMM => some .I
  | .SYSTEM => some .I
  | .OP => some .R
  | .INVALID => none

/-- The natural width of a format's immediate: its width before extension (30_encoding.md R48); R has no immediate. -/
def naturalWidth : Format → Option Nat
  | .U => some 32
  | .J => some 21
  | .B => some 13
  | .S => some 12
  | .I => some 12
  | .R => none

/-- The 4-bit code of a class where a binary bus carries it (30_encoding.md R41; log entry 9). -/
def busCode : OpcodeClass → BitVec 4
  | .LUI => 0x0#4
  | .AUIPC => 0x1#4
  | .JAL => 0x2#4
  | .JALR => 0x3#4
  | .BRANCH => 0x4#4
  | .LOAD => 0x5#4
  | .STORE => 0x6#4
  | .OP_IMM => 0x7#4
  | .OP => 0x8#4
  | .SYSTEM => 0x9#4
  | .INVALID => 0xA#4

/-- The class a bus code names; the codes 0xB to 0xF are never driven and name none (R41, 92_eei_decisions.md D3). -/
def ofBusCode (code : BitVec 4) : Option OpcodeClass :=
  match code with
  | 0x0#4 => some .LUI
  | 0x1#4 => some .AUIPC
  | 0x2#4 => some .JAL
  | 0x3#4 => some .JALR
  | 0x4#4 => some .BRANCH
  | 0x5#4 => some .LOAD
  | 0x6#4 => some .STORE
  | 0x7#4 => some .OP_IMM
  | 0x8#4 => some .OP
  | 0x9#4 => some .SYSTEM
  | 0xA#4 => some .INVALID
  | _ => none

/-- The immediate dispatch of 40_decode.md R54, on the classified opcode. -/
def immOf (c : OpcodeClass) (raw : Word) : Word :=
  match c with
  | .LUI => immU raw
  | .AUIPC => immU raw
  | .JAL => immJ raw
  | .BRANCH => immB raw
  | .STORE => immS raw
  | .LOAD => immI raw
  | .JALR => immI raw
  | .OP_IMM => immI raw
  | .SYSTEM => immI raw
  | .OP => immNone raw
  | .INVALID => immNone raw

end Sys2Proof.Machine
end

