-- ==== Sys2Proof/Machine/Ops.lean ====
section
/-! DEFINITION. The block itself, `decode` (40_decode.md R53) as one function of the word; the outputs as that function of
the input port; and the named operations on what stands around the block: the caller presents a word, a call returns a
record. Taking an exception and returning from one have no operation here: the block does neither (60_exceptions.md
R72-R76). -/

namespace Sys2Proof.Machine

/-- The record of a word for a class and an immediate: every output but `opcode` and `immediate` is the same function of
the word for all classes (40_decode.md R53, 30_encoding.md R37). -/
def recordOf (c : OpcodeClass) (immediate : Word) (raw : Word) : DecodedInstruction where
  raw := raw
  opcode := c
  rd := rdOf raw
  rs1 := rs1Of raw
  rs2 := rs2Of raw
  funct3 := funct3Of raw
  funct7 := funct7Of raw
  immediate := immediate

/-- `decode(raw)` of 40_decode.md R53, whole: classify, extract, assemble the immediate of the class. This is the block,
a function from the input to the outputs with no state (10_state.md R13). -/
def decodedRecord (raw : Word) : DecodedInstruction :=
  recordOf (classify (opfieldOf raw)) (immOf (classify (opfieldOf raw)) raw) raw

/-- The values on the output ports: "a function of the present value of `raw` alone" (10_state.md R21). They are nowhere
stored, so a new word on the input is in them at once. -/
def State.out (s : State) : DecodedInstruction := decodedRecord s.raw

/-- The caller presents a word on the input port (10_state.md R14, R22): any 32-bit word, at any time between steps. The
outputs follow (`State.out`); the record an earlier call returned is the caller's and stays as it is (R15). -/
def State.present (s : State) (raw : Word) : State := { s with raw := raw }

/-- A call returns its record to the caller (10_state.md R15, R22). -/
def State.deliver (s : State) (d : DecodedInstruction) : State := { s with record := some d }

/-- The shared effect of every class: the call returns the record of the word, with the class and the class's own
immediate. It never fails (40_decode.md R57), leaves the input port alone, and reads no record returned before (R58). -/
def emit (c : OpcodeClass) (imm : Word → Word) (raw : Word) (s : State) : Host.Outcome State Fault Refusal :=
  .next (s.deliver (recordOf c (imm raw) raw))

end Sys2Proof.Machine
end

