-- ==== Sys2Proof/Machine/BType.lean ====
section
/-! DEFINITION. The B-type class, BRANCH (43_b_type.md). -/

namespace Sys2Proof.Machine

/-- BRANCH (43_b_type.md R64): class BRANCH, immediate `immB(raw)`; every `funct3` is passed through (30_encoding.md
R49). -/
def execBranch (f : Fields) (s : State) : Host.Outcome State Fault Refusal := emit .BRANCH immB (encode (.branch f)) s

end Sys2Proof.Machine
end

