-- ==== Sys2Proof/Machine/IType.lean ====
section
/-! DEFINITION. The I-type classes, LOAD, JALR, OP_IMM and SYSTEM (45_i_type.md): one immediate, four opcodes. -/

namespace Sys2Proof.Machine

/-- LOAD (45_i_type.md R66): class LOAD, immediate `immI(raw)`; no memory is read (20_memory.md R32). -/
def execLoad (f : Fields) (s : State) : Host.Outcome State Fault Refusal := emit .LOAD immI (encode (.load f)) s

/-- JALR (45_i_type.md R67): class JALR, immediate `immI(raw)`, an odd offset output as it is; `funct3` unchecked. -/
def execJalr (f : Fields) (s : State) : Host.Outcome State Fault Refusal := emit .JALR immI (encode (.jalr f)) s

/-- OP_IMM (45_i_type.md R68): class OP_IMM, immediate `immI(raw)`, all 12 bits for the shift forms too
(92_eei_decisions.md D20); no hint is marked (30_encoding.md R50). -/
def execOpImm (f : Fields) (s : State) : Host.Outcome State Fault Refusal := emit .OP_IMM immI (encode (.opImm f)) s

/-- SYSTEM (45_i_type.md R69): class SYSTEM, immediate `immI(raw)`, a CSR number sign-extended like any other
(92_eei_decisions.md D19); ECALL, EBREAK, MRET, SRET and WFI are not told apart and raise nothing
(60_exceptions.md R72, R75, R83). -/
def execSystem (f : Fields) (s : State) : Host.Outcome State Fault Refusal := emit .SYSTEM immI (encode (.system f)) s

end Sys2Proof.Machine
end

