-- ==== Sys2Proof/Machine/JType.lean ====
section
/-! DEFINITION. The J-type class, JAL (42_j_type.md). -/

namespace Sys2Proof.Machine

/-- JAL (42_j_type.md R63): class JAL, immediate `immJ(raw)`; neither link value nor target is computed (10_state.md
R24), and no alignment is checked (20_memory.md R31). -/
def execJal (f : Fields) (s : State) : Host.Outcome State Fault Refusal := emit .JAL immJ (encode (.jal f)) s

end Sys2Proof.Machine
end

