-- ==== Sys2Proof/Machine/RType.lean ====
section
/-! DEFINITION. The classes with no immediate, OP and INVALID (46_r_type_and_invalid.md). -/

namespace Sys2Proof.Machine

/-- OP (46_r_type_and_invalid.md R70): class OP, immediate 0; ADD, SUB and MUL are not told apart. -/
def execOp (f : Fields) (s : State) : Host.Outcome State Fault Refusal := emit .OP immNone (encode (.op f)) s

/-- INVALID (46_r_type_and_invalid.md R71): class INVALID, immediate 0, the fixed fields still output; an ordinary value,
no exception (60_exceptions.md R72). -/
def execInvalid (opfield : OpField) (f : Fields) (s : State) : Host.Outcome State Fault Refusal :=
  emit .INVALID immNone (encode (.invalid opfield f)) s

end Sys2Proof.Machine
end

