-- ==== Sys2Proof/Machine/SType.lean ====
section
/-! DEFINITION. The S-type class, STORE (44_s_type.md). -/

namespace Sys2Proof.Machine

/-- STORE (44_s_type.md R65): class STORE, immediate `immS(raw)`; no address is formed and no memory written
(20_memory.md R32). -/
def execStore (f : Fields) (s : State) : Host.Outcome State Fault Refusal := emit .STORE immS (encode (.store f)) s

end Sys2Proof.Machine
end

