-- ==== Sys2Proof/Machine/UType.lean ====
section
/-! DEFINITION. The U-type classes, LUI and AUIPC (41_u_type.md). -/

namespace Sys2Proof.Machine

/-- LUI (41_u_type.md R61): class LUI, immediate `immU(raw)`. -/
def execLui (f : Fields) (s : State) : Host.Outcome State Fault Refusal := emit .LUI immU (encode (.lui f)) s

/-- AUIPC (41_u_type.md R62): class AUIPC, immediate `immU(raw)`; the offset only, no pc is added (10_state.md R24). -/
def execAuipc (f : Fields) (s : State) : Host.Outcome State Fault Refusal := emit .AUIPC immU (encode (.auipc f)) s

end Sys2Proof.Machine
end

