-- ==== Sys2Proof/Machine/Dispatch.lean ====
section
/-! DEFINITION. `exec`: one arm per constructor of `Instr`, each one direct call of that instruction's meaning. -/

namespace Sys2Proof.Machine

def exec (i : Instr) (s : State) : Host.Outcome State Fault Refusal :=
  match i with
  | .lui f => Sys2Proof.Machine.execLui f s
  | .auipc f => Sys2Proof.Machine.execAuipc f s
  | .jal f => Sys2Proof.Machine.execJal f s
  | .jalr f => Sys2Proof.Machine.execJalr f s
  | .branch f => Sys2Proof.Machine.execBranch f s
  | .load f => Sys2Proof.Machine.execLoad f s
  | .store f => Sys2Proof.Machine.execStore f s
  | .opImm f => Sys2Proof.Machine.execOpImm f s
  | .op f => Sys2Proof.Machine.execOp f s
  | .system f => Sys2Proof.Machine.execSystem f s
  | .invalid opfield f => Sys2Proof.Machine.execInvalid opfield f s

end Sys2Proof.Machine
end

