-- ==== Sys2Proof/Machine/Step.lean ====
section
/-! DEFINITION. One step: one call of the block, the caller reading the record of the word now on its input port
(10_state.md R15, R22). -/

namespace Sys2Proof.Machine

/-- One call of the block: the word on the input port is decoded and its instruction's meaning returns the record to the
caller, which is the value on the output ports (`State.out`; statement StepIsDecode). The input port keeps its word: the
caller changes it (`State.present`), never the block. There is no program counter and nothing to advance (10_state.md
R24). What a step is here is the model's choice (log entry 3). -/
def step (s : State) : Host.Outcome State Fault Refusal := exec (decode s.raw) s

/-- The caller presents a row of the opcode table, given by its bits, on the input port: the next step decodes and runs
exactly it (log entry 4). -/
def State.withFetchWord (s : State) (nbits w : Nat) : State := s.present (tableWord nbits w)

end Sys2Proof.Machine
end

