-- ==== Sys2Proof/Safety.lean ====
section
/-! DEFINITION. What statements about the block are said in: which records are possible, what a step returns, and the
records a caller reads for a list of words. -/

namespace Sys2Proof

open Sys2Proof.Machine

/-- The five field outputs are the bits of `raw` at the fixed positions of 30_encoding.md R37, written in the spec's own
slices. -/
def FieldsFrom (raw : Word) (d : DecodedInstruction) : Prop :=
  d.rd = raw.extractLsb 11 7 ∧ d.funct3 = raw.extractLsb 14 12 ∧ d.rs1 = raw.extractLsb 19 15 ∧
    d.rs2 = raw.extractLsb 24 20 ∧ d.funct7 = raw.extractLsb 31 25

/-- A record the block can drive: it is the record of the word it carries (40_decode.md R53). It says so of the record
alone, so it may be asked of a record a caller holds whatever is on the input. -/
def Coherent (d : DecodedInstruction) : Prop := d = decodedRecord d.raw

/-- The record the caller holds is what stands on the output ports (10_state.md R15, R21). -/
def HoldsOutputs (s : State) : Prop := s.record = some s.out

/-- A step returns the record `d` and leaves the input port alone. -/
def Returns (s : State) (d : DecodedInstruction) : Prop :=
  ∃ t : State, Machine.step s = .next t ∧ t.raw = s.raw ∧ t.record = some d

/-- What a class rule says of a word (41_u_type.md to 46_r_type_and_invalid.md with 40_decode.md R53): the output ports
hold the word itself, the five fixed fields and the class, and the record is as `P` says; a step answers a next state
with just that record returned and the input port unchanged. -/
def DecodesAs (s : State) (c : OpcodeClass) (P : DecodedInstruction → Prop) : Prop :=
  Returns s s.out ∧ s.out.raw = s.raw ∧ FieldsFrom s.raw s.out ∧ s.out.opcode = c ∧ P s.out

/-- The bit of a record that a cell of the format table names (30_encoding.md R39): a bit of the primary opcode, of a
field output, or of the immediate output. -/
def cellValue (d : DecodedInstruction) : Cell → Bool
  | .opcode k => (d.raw.extractLsb 6 0).getLsbD k
  | .rd k => d.rd.getLsbD k
  | .funct3 k => d.funct3.getLsbD k
  | .rs1 k => d.rs1.getLsbD k
  | .rs2 k => d.rs2.getLsbD k
  | .funct7 k => d.funct7.getLsbD k
  | .imm k => d.immediate.getLsbD k

/-- The two records hold the same five field outputs. -/
def SameFields (d e : DecodedInstruction) : Prop :=
  d.rd = e.rd ∧ d.funct3 = e.funct3 ∧ d.rs1 = e.rs1 ∧ d.rs2 = e.rs2 ∧ d.funct7 = e.funct7

/-- One move of the machine in its surroundings: the caller presents a word, or the block takes a step. -/
inductive Move : State → State → Prop where
  | present (s : State) (raw : Word) : Move s (s.present raw)
  | step (s t : State) (h : Machine.step s = .next t) : Move s t

/-- The records a caller reads who presents the words in turn and takes one step for each; none if a step stops. -/
def recordsOf : List Word → State → Option (List DecodedInstruction)
  | [], _ => some []
  | w :: ws, s =>
    match Machine.step (s.present w) with
    | .next t => t.record.bind fun d => (recordsOf ws t).map (d :: ·)
    | .fault _ => none
    | .refused _ => none

end Sys2Proof
end

