-- ==== Sys2Proof/Certificates/Slice0/Obligations.lean ====
section
/-! DEFINITION. The statements for the provers. The first group is about `exec`, each instruction in terms of its own
operands; the second about `step`, each class in the spec's slices of the input word; then the laws of the whole block. -/

open Sys2Proof Sys2Proof.Machine

/-! ### Every instruction completes, with the record its operands give (40_decode.md R53, R61-R71)

The frame is in the equation: the next state is the old one but for the record returned to the caller, so the input port
is unchanged, and State holds nothing else. That a step is one call, whose record State keeps for the caller, is the
model's choice (log entry 3); what the record holds is the spec's. -/

/-- LUI and AUIPC complete in every state. The U-type immediate is bits [31:12] of the word, which are funct7, rs2, rs1
and funct3, over twelve zeros (30_encoding.md R43, 41_u_type.md R61, R62). -/
def Obligations.UTypeCompletes : Prop :=
  ∀ (f : Fields) (s : State),
    exec (.lui f) s = .next { s with record := some (
      { raw := f.funct7 ++ f.rs2 ++ f.rs1 ++ f.funct3 ++ f.rd ++ 0x37#7, opcode := .LUI,
        rd := f.rd, rs1 := f.rs1, rs2 := f.rs2, funct3 := f.funct3, funct7 := f.funct7,
        immediate := f.funct7 ++ f.rs2 ++ f.rs1 ++ f.funct3 ++ 0#12 }) } ∧
    exec (.auipc f) s = .next { s with record := some (
      { raw := f.funct7 ++ f.rs2 ++ f.rs1 ++ f.funct3 ++ f.rd ++ 0x17#7, opcode := .AUIPC,
        rd := f.rd, rs1 := f.rs1, rs2 := f.rs2, funct3 := f.funct3, funct7 := f.funct7,
        immediate := f.funct7 ++ f.rs2 ++ f.rs1 ++ f.funct3 ++ 0#12 }) }

/-- JAL completes in every state. The J-type immediate is the sign extension of funct7[6], rs1, funct3, rs2[0],
funct7[5:0], rs2[4:1] and a zero (30_encoding.md R44, 42_j_type.md R63). -/
def Obligations.JTypeCompletes : Prop :=
  ∀ (f : Fields) (s : State),
    exec (.jal f) s = .next { s with record := some (
      { raw := f.funct7 ++ f.rs2 ++ f.rs1 ++ f.funct3 ++ f.rd ++ 0x6F#7, opcode := .JAL,
        rd := f.rd, rs1 := f.rs1, rs2 := f.rs2, funct3 := f.funct3, funct7 := f.funct7,
        immediate := (f.funct7.extractLsb 6 6 ++ f.rs1 ++ f.funct3 ++ f.rs2.extractLsb 0 0 ++ f.funct7.extractLsb 5 0 ++
          f.rs2.extractLsb 4 1 ++ 0#1).signExtend 32 }) }

/-- BRANCH completes in every state. The B-type immediate is the sign extension of funct7[6], rd[0], funct7[5:0], rd[4:1]
and a zero (30_encoding.md R45, 43_b_type.md R64). -/
def Obligations.BTypeCompletes : Prop :=
  ∀ (f : Fields) (s : State),
    exec (.branch f) s = .next { s with record := some (
      { raw := f.funct7 ++ f.rs2 ++ f.rs1 ++ f.funct3 ++ f.rd ++ 0x63#7, opcode := .BRANCH,
        rd := f.rd, rs1 := f.rs1, rs2 := f.rs2, funct3 := f.funct3, funct7 := f.funct7,
        immediate := (f.funct7.extractLsb 6 6 ++ f.rd.extractLsb 0 0 ++ f.funct7.extractLsb 5 0 ++
          f.rd.extractLsb 4 1 ++ 0#1).signExtend 32 }) }

/-- STORE completes in every state. The S-type immediate is the sign extension of funct7 and rd (30_encoding.md R46,
44_s_type.md R65). -/
def Obligations.STypeCompletes : Prop :=
  ∀ (f : Fields) (s : State),
    exec (.store f) s = .next { s with record := some (
      { raw := f.funct7 ++ f.rs2 ++ f.rs1 ++ f.funct3 ++ f.rd ++ 0x23#7, opcode := .STORE,
        rd := f.rd, rs1 := f.rs1, rs2 := f.rs2, funct3 := f.funct3, funct7 := f.funct7,
        immediate := (f.funct7 ++ f.rd).signExtend 32 }) }

/-- LOAD, JALR, OP_IMM and SYSTEM complete in every state. The I-type immediate is the sign extension of funct7 and rs2
(30_encoding.md R47, 45_i_type.md R66-R69). -/
def Obligations.ITypeCompletes : Prop :=
  ∀ (f : Fields) (s : State),
    exec (.load f) s = .next { s with record := some (
      { raw := f.funct7 ++ f.rs2 ++ f.rs1 ++ f.funct3 ++ f.rd ++ 0x03#7, opcode := .LOAD,
        rd := f.rd, rs1 := f.rs1, rs2 := f.rs2, funct3 := f.funct3, funct7 := f.funct7,
        immediate := (f.funct7 ++ f.rs2).signExtend 32 }) } ∧
    exec (.jalr f) s = .next { s with record := some (
      { raw := f.funct7 ++ f.rs2 ++ f.rs1 ++ f.funct3 ++ f.rd ++ 0x67#7, opcode := .JALR,
        rd := f.rd, rs1 := f.rs1, rs2 := f.rs2, funct3 := f.funct3, funct7 := f.funct7,
        immediate := (f.funct7 ++ f.rs2).signExtend 32 }) } ∧
    exec (.opImm f) s = .next { s with record := some (
      { raw := f.funct7 ++ f.rs2 ++ f.rs1 ++ f.funct3 ++ f.rd ++ 0x13#7, opcode := .OP_IMM,
        rd := f.rd, rs1 := f.rs1, rs2 := f.rs2, funct3 := f.funct3, funct7 := f.funct7,
        immediate := (f.funct7 ++ f.rs2).signExtend 32 }) } ∧
    exec (.system f) s = .next { s with record := some (
      { raw := f.funct7 ++ f.rs2 ++ f.rs1 ++ f.funct3 ++ f.rd ++ 0x73#7, opcode := .SYSTEM,
        rd := f.rd, rs1 := f.rs1, rs2 := f.rs2, funct3 := f.funct3, funct7 := f.funct7,
        immediate := (f.funct7 ++ f.rs2).signExtend 32 }) }

/-- OP, and INVALID with any opcode field outside the table, complete in every state, with immediate 0 and the fixed
fields still output (46_r_type_and_invalid.md R70, R71). -/
def Obligations.NoImmediateTypesComplete : Prop :=
  ∀ (f : Fields) (s : State),
    exec (.op f) s = .next { s with record := some (
      { raw := f.funct7 ++ f.rs2 ++ f.rs1 ++ f.funct3 ++ f.rd ++ 0x33#7, opcode := .OP,
        rd := f.rd, rs1 := f.rs1, rs2 := f.rs2, funct3 := f.funct3, funct7 := f.funct7, immediate := 0#32 }) } ∧
    ∀ opfield : OpField, opfield ∉ knownOpcodes →
      exec (.invalid opfield f) s = .next { s with record := some (
        { raw := f.funct7 ++ f.rs2 ++ f.rs1 ++ f.funct3 ++ f.rd ++ opfield, opcode := .INVALID,
          rd := f.rd, rs1 := f.rs1, rs2 := f.rs2, funct3 := f.funct3, funct7 := f.funct7, immediate := 0#32 }) }

/-! ### What a step does with a word of each class, in the spec's slices of the word (R61-R71) -/

/-- 41_u_type.md R61, LUI. -/
def Obligations.LuiWordRecord : Prop :=
  ∀ s : State, s.raw.extractLsb 6 0 = 0x37#7 → DecodesAs s .LUI fun d =>
    d.immediate = s.raw.extractLsb 31 12 ++ 0#12 ∧ d.immediate.extractLsb 11 0 = 0#12 ∧
      (s.raw.getLsbD 31 = true → signedReading d.immediate < 0)

/-- 41_u_type.md R62, AUIPC. -/
def Obligations.AuipcWordRecord : Prop :=
  ∀ s : State, s.raw.extractLsb 6 0 = 0x17#7 → DecodesAs s .AUIPC fun d =>
    d.immediate = s.raw.extractLsb 31 12 ++ 0#12 ∧ d.immediate.extractLsb 11 0 = 0#12

/-- 42_j_type.md R63, JAL: raw[20] goes to bit 11, raw[31] to bit 20 and every bit above. -/
def Obligations.JalWordRecord : Prop :=
  ∀ s : State, s.raw.extractLsb 6 0 = 0x6F#7 → DecodesAs s .JAL fun d =>
    d.immediate = (s.raw.extractLsb 31 31 ++ s.raw.extractLsb 19 12 ++ s.raw.extractLsb 20 20 ++ s.raw.extractLsb 30 21 ++
      0#1).signExtend 32 ∧
    d.immediate.getLsbD 0 = false ∧ d.immediate.getLsbD 11 = s.raw.getLsbD 20 ∧
    (∀ i, 20 ≤ i → i < 32 → d.immediate.getLsbD i = s.raw.getLsbD 31) ∧
    -1048576 ≤ signedReading d.immediate ∧ signedReading d.immediate ≤ 1048574

/-- 43_b_type.md R64, BRANCH: raw[7] goes to bit 11, raw[31] to bit 12 and every bit above. -/
def Obligations.BranchWordRecord : Prop :=
  ∀ s : State, s.raw.extractLsb 6 0 = 0x63#7 → DecodesAs s .BRANCH fun d =>
    d.immediate = (s.raw.extractLsb 31 31 ++ s.raw.extractLsb 7 7 ++ s.raw.extractLsb 30 25 ++ s.raw.extractLsb 11 8 ++
      0#1).signExtend 32 ∧
    d.immediate.getLsbD 0 = false ∧ d.immediate.getLsbD 11 = s.raw.getLsbD 7 ∧
    (∀ i, 12 ≤ i → i < 32 → d.immediate.getLsbD i = s.raw.getLsbD 31) ∧
    -4096 ≤ signedReading d.immediate ∧ signedReading d.immediate ≤ 4094

/-- 44_s_type.md R65, STORE: raw[31] forces bits [31:12] (90_conflicts.md C1), and the `rd` and `funct7` outputs hold the
two immediate pieces. -/
def Obligations.StoreWordRecord : Prop :=
  ∀ s : State, s.raw.extractLsb 6 0 = 0x23#7 → DecodesAs s .STORE fun d =>
    d.immediate = (s.raw.extractLsb 31 25 ++ s.raw.extractLsb 11 7).signExtend 32 ∧
    d.rd = d.immediate.extractLsb 4 0 ∧ d.funct7 = d.immediate.extractLsb 11 5 ∧
    (∀ i, 11 ≤ i → i < 32 → d.immediate.getLsbD i = s.raw.getLsbD 31) ∧
    -2048 ≤ signedReading d.immediate ∧ signedReading d.immediate ≤ 2047

/-- 45_i_type.md R66, LOAD. -/
def Obligations.LoadWordRecord : Prop :=
  ∀ s : State, s.raw.extractLsb 6 0 = 0x03#7 → DecodesAs s .LOAD fun d =>
    d.immediate = (s.raw.extractLsb 31 20).signExtend 32

/-- 45_i_type.md R67, JALR: an odd offset is output as it is. -/
def Obligations.JalrWordRecord : Prop :=
  ∀ s : State, s.raw.extractLsb 6 0 = 0x67#7 → DecodesAs s .JALR fun d =>
    d.immediate = (s.raw.extractLsb 31 20).signExtend 32 ∧ d.immediate.getLsbD 0 = s.raw.getLsbD 20

/-- 45_i_type.md R68, OP_IMM: the immediate holds all 12 bits for the shift forms too, the low five of them in `rs2` and
the others in `funct7`. -/
def Obligations.OpImmWordRecord : Prop :=
  ∀ s : State, s.raw.extractLsb 6 0 = 0x13#7 → DecodesAs s .OP_IMM fun d =>
    d.immediate = (s.raw.extractLsb 31 20).signExtend 32 ∧
    d.immediate.extractLsb 4 0 = d.rs2 ∧ d.immediate.extractLsb 11 5 = d.funct7

/-- 45_i_type.md R69, SYSTEM: a CSR number is sign-extended, and is immediate[11:0] (92_eei_decisions.md D19). -/
def Obligations.SystemWordRecord : Prop :=
  ∀ s : State, s.raw.extractLsb 6 0 = 0x73#7 → DecodesAs s .SYSTEM fun d =>
    d.immediate = (s.raw.extractLsb 31 20).signExtend 32 ∧ d.immediate.extractLsb 11 0 = s.raw.extractLsb 31 20

/-- 46_r_type_and_invalid.md R70, OP. -/
def Obligations.OpWordRecord : Prop :=
  ∀ s : State, s.raw.extractLsb 6 0 = 0x33#7 → DecodesAs s .OP fun d => d.immediate = 0x00000000#32

/-- 46_r_type_and_invalid.md R71, INVALID: any opcode field that is none of the ten of 30_encoding.md R40. -/
def Obligations.InvalidWordRecord : Prop :=
  ∀ s : State,
    s.raw.extractLsb 6 0 ∉ [0x37#7, 0x17#7, 0x6F#7, 0x67#7, 0x63#7, 0x03#7, 0x23#7, 0x13#7, 0x33#7, 0x73#7] →
      DecodesAs s .INVALID fun d => d.immediate = 0x00000000#32

/-! ### The whole operation -/

/-- 40_decode.md R53, the block's one operation: the output ports hold, and a step returns, the record of the word on the
input, every field as R53 writes it, whatever record was returned before. -/
def Obligations.StepIsDecode : Prop :=
  ∀ s : State, s.out =
      { raw := s.raw, opcode := classify (s.raw.extractLsb 6 0), rd := s.raw.extractLsb 11 7,
        rs1 := s.raw.extractLsb 19 15, rs2 := s.raw.extractLsb 24 20, funct3 := s.raw.extractLsb 14 12,
        funct7 := s.raw.extractLsb 31 25, immediate := immOf (classify (s.raw.extractLsb 6 0)) s.raw } ∧
    s.out.mnemonicLabel = label (classify (s.raw.extractLsb 6 0)) ∧
    step s = .next { s with record := some s.out }

/-- 40_decode.md R57: a step returns a record on every input, from every state, and so does every well-formed instruction,
which is every instruction a word decodes to; the block has no failure outcome. -/
def Obligations.DecodeIsTotal : Prop :=
  (∀ s : State, ∃ d : DecodedInstruction, step s = .next { s with record := some d }) ∧
    ∀ (i : Instr) (s : State), i.wf = true →
      ∃ d : DecodedInstruction, exec i s = .next { s with record := some d }

/-- An `invalid` term that carries a known opcode field, which no word decodes to, completes like any other `invalid`: it
returns the INVALID record of its word. The spec has no such term; that it completes, and so, is the model's choice, log
entry 12. -/
def Obligations.IllFormedInvalidCompletes : Prop :=
  ∀ (opfield : OpField) (f : Fields) (s : State), opfield ∈ knownOpcodes →
    (Instr.invalid opfield f).wf = false ∧
      exec (.invalid opfield f) s = .next { s with record := some (
        { raw := f.funct7 ++ f.rs2 ++ f.rs1 ++ f.funct3 ++ f.rd ++ opfield, opcode := .INVALID,
          rd := f.rd, rs1 := f.rs1, rs2 := f.rs2, funct3 := f.funct3, funct7 := f.funct7, immediate := 0#32 }) }

/-- 00_scope.md R12 and 40_decode.md R58: two states with the same word on the input have the same outputs and step to the
same state, whatever record was returned before; no previous input shows. -/
def Obligations.OutputsReadOnlyTheWord : Prop :=
  ∀ s s' : State, s.raw = s'.raw → s.out = s'.out ∧ ∃ t : State, step s = .next t ∧ step s' = .next t

/-- Frame of every instruction, and no history: an instruction leaves the input port, and with it the output ports, as they
were, and the record it returns does not depend on the state it runs in. State holds nothing else. For an ill-formed
`invalid` this is the model's choice (log entry 12). -/
def Obligations.InstructionFrame : Prop :=
  ∀ (i : Instr) (s s' t t' : State), exec i s = .next t → exec i s' = .next t' →
    t.raw = s.raw ∧ t.out = s.out ∧ t'.raw = s'.raw ∧ t'.out = s'.out ∧ t.record = t'.record

/-- 20_memory.md R32: decoding is idempotent; a step on the state a step answered answers that state. -/
def Obligations.StepIdempotent : Prop :=
  ∀ s t : State, step s = .next t → step t = .next t

/-- 70_reset_and_hazards.md R87: the records read for a list of words are the records of the words, one by one, from any
state; no word's record depends on the words before it. -/
def Obligations.RecordsOfWordsIndependent : Prop :=
  ∀ (ws : List Word) (s : State), recordsOf ws s = some (ws.map decodedRecord)

/-- 20_memory.md R34: the order in which words are presented changes no record. -/
def Obligations.PresentingOrderImmaterial : Prop :=
  ∀ (ws ws' : List Word) (s s' : State), ws.Perm ws' →
    ∃ rs rs' : List DecodedInstruction, recordsOf ws s = some rs ∧ recordsOf ws' s' = some rs' ∧ rs.Perm rs'

/-! ### Classification -/

/-- 30_encoding.md R40: the class a step returns is the table's, and depends on raw[6:0] only. -/
def Obligations.ClassFollowsTheTable : Prop :=
  ∀ (s : State) (d : DecodedInstruction), Returns s d → d.opcode =
    if s.raw.extractLsb 6 0 = 0x37#7 then .LUI
    else if s.raw.extractLsb 6 0 = 0x17#7 then .AUIPC
    else if s.raw.extractLsb 6 0 = 0x6F#7 then .JAL
    else if s.raw.extractLsb 6 0 = 0x67#7 then .JALR
    else if s.raw.extractLsb 6 0 = 0x63#7 then .BRANCH
    else if s.raw.extractLsb 6 0 = 0x03#7 then .LOAD
    else if s.raw.extractLsb 6 0 = 0x23#7 then .STORE
    else if s.raw.extractLsb 6 0 = 0x13#7 then .OP_IMM
    else if s.raw.extractLsb 6 0 = 0x33#7 then .OP
    else if s.raw.extractLsb 6 0 = 0x73#7 then .SYSTEM
    else .INVALID

/-- 30_encoding.md R42: each known class has exactly one opcode, and INVALID has the other 118. -/
def Obligations.ClassesPartitionOpcodes : Prop :=
  (∀ c : OpcodeClass, c ≠ .INVALID → ∃ op : OpField, classify op = c ∧ ∀ op' : OpField, classify op' = c → op' = op) ∧
    ((List.range 128).filter fun n => classify (BitVec.ofNat 7 n) = .INVALID).length = 118

/-- 30_encoding.md R49: a word with a known opcode keeps its class whatever its funct and register fields hold, is never
INVALID, and is decoded by its class rule: its fields extracted, its immediate that of the class. -/
def Obligations.NoKnownEncodingRejected : Prop :=
  ∀ (s : State) (f : Fields), s.raw.extractLsb 6 0 ∈ knownOpcodes →
    ∃ d d' : DecodedInstruction, Returns s d ∧ Returns (s.present (f.toWord (s.raw.extractLsb 6 0))) d' ∧
      d'.opcode = d.opcode ∧ d.opcode ≠ .INVALID ∧ FieldsFrom (f.toWord (s.raw.extractLsb 6 0)) d' ∧
      d'.immediate = immOf d.opcode (f.toWord (s.raw.extractLsb 6 0))

/-- 30_encoding.md R51: every known opcode ends in 11, so a word whose low two bits are not 11 (a compressed quadrant),
and a word with a 48-bit or 64-bit length mark, is INVALID with immediate 0 and its fields extracted. -/
def Obligations.OtherLengthsAreInvalid : Prop :=
  (∀ op ∈ knownOpcodes, op.extractLsb 1 0 = 0b11#2) ∧
    ∀ s : State,
      (s.raw.extractLsb 1 0 ≠ 0b11#2 ∨ s.raw.extractLsb 5 0 = 0b011111#6 ∨ s.raw.extractLsb 6 0 = 0b0111111#7) →
        DecodesAs s .INVALID fun d => d.immediate = 0#32

/-- 20_memory.md R35: FENCE and FENCE.I, opcode 0x0F, are INVALID with immediate 0; so are the custom spaces and the other
standard opcodes that 30_encoding.md R50 names outside the table. -/
def Obligations.FencesAndUnlistedOpcodesAreInvalid : Prop :=
  ∀ s : State,
    s.raw.extractLsb 6 0 ∈ [0x0F#7, 0x0B#7, 0x2B#7, 0x5B#7, 0x7B#7, 0x2F#7, 0x07#7, 0x27#7, 0x43#7, 0x47#7, 0x4B#7,
      0x4F#7, 0x53#7, 0x57#7, 0x1B#7, 0x3B#7] →
      DecodesAs s .INVALID fun d => d.immediate = 0#32

/-- 60_exceptions.md R75 and R83: mret, sret and wfi words are SYSTEM like any other, with immediates 0x302, 0x102 and
0x105; the step returns that record and changes nothing else. -/
def Obligations.TrapReturnAndWaitWordsAreSystem : Prop :=
  ∀ s : State, ∀ p ∈ [(0x30200073#32, 0x302#32), (0x10200073#32, 0x102#32), (0x10500073#32, 0x105#32)],
    DecodesAs (s.present p.1) .SYSTEM fun d => d.immediate = p.2

/-- 30_encoding.md R41: the bus codes in the source's order; each names its class back; 0xB to 0xF are never driven and
name no class. -/
def Obligations.BusCodesNameClasses : Prop :=
  [OpcodeClass.LUI, .AUIPC, .JAL, .JALR, .BRANCH, .LOAD, .STORE, .OP_IMM, .OP, .SYSTEM, .INVALID].map busCode =
      [0x0#4, 0x1#4, 0x2#4, 0x3#4, 0x4#4, 0x5#4, 0x6#4, 0x7#4, 0x8#4, 0x9#4, 0xA#4] ∧
    (∀ c : OpcodeClass, ofBusCode (busCode c) = some c ∧ (busCode c).toNat ≤ 0xA) ∧
    ∀ code : BitVec 4, 0xB ≤ code.toNat → ofBusCode code = none

/-- 40_decode.md R56: the format of each class; INVALID has none. -/
def Obligations.FormatOfEachClass : Prop :=
  [OpcodeClass.LUI, .AUIPC, .JAL, .BRANCH, .STORE, .LOAD, .JALR, .OP_IMM, .SYSTEM, .OP, .INVALID].map formatOf =
    [some .U, some .U, some .J, some .B, some .S, some .I, some .I, some .I, some .I, some .R, none]

/-! ### Fields -/

/-- 10_state.md R16: the word is passed through unchanged, on the output port and in the record a step returns. -/
def Obligations.RawPassesThrough : Prop :=
  ∀ (s : State) (d : DecodedInstruction), Returns s d → d.raw = s.raw ∧ s.out.raw = s.raw

/-- 30_encoding.md R37: for every word, whatever its class, the five field outputs are cut from the fixed positions, in the
slice form and in the shift-and-mask form, and with the primary opcode they tile the word. -/
def Obligations.FieldsAtFixedPositions : Prop :=
  ∀ (s : State) (d : DecodedInstruction), Returns s d →
    FieldsFrom s.raw d ∧
    d.rd.setWidth 32 = (s.raw >>> 7) &&& 0x1F#32 ∧ d.funct3.setWidth 32 = (s.raw >>> 12) &&& 0x7#32 ∧
    d.rs1.setWidth 32 = (s.raw >>> 15) &&& 0x1F#32 ∧ d.rs2.setWidth 32 = (s.raw >>> 20) &&& 0x1F#32 ∧
    d.funct7.setWidth 32 = (s.raw >>> 25) &&& 0x7F#32 ∧
    s.raw = d.funct7 ++ d.rs2 ++ d.rs1 ++ d.funct3 ++ d.rd ++ s.raw.extractLsb 6 0

/-- Field independence (95_test_vectors.md section 2.9): two words with the same bits [31:7] have the same field outputs
whatever their classes, and, where their classes have the same format, the same immediate. -/
def Obligations.FieldsIndependentOfOpcode : Prop :=
  ∀ (s s' : State) (d d' : DecodedInstruction), s.raw.extractLsb 31 7 = s'.raw.extractLsb 31 7 → Returns s d →
    Returns s' d' → SameFields d d' ∧ (formatOf d.opcode = formatOf d'.opcode → d.immediate = d'.immediate)

/-- A known class and the five fields are the whole word: two steps that return the same known class and the same fields
return the same record, from the same word (30_encoding.md R37, R42). -/
def Obligations.KnownRecordDeterminesWord : Prop :=
  ∀ (s s' : State) (d d' : DecodedInstruction), Returns s d → Returns s' d' → d.opcode ≠ .INVALID →
    d.opcode = d'.opcode → SameFields d d' → s.raw = s'.raw ∧ d = d'

/-- No destination index is special, 0 among them, and no hint is marked (10_state.md R18, 30_encoding.md R50): changing rd
in a word of a class whose immediate does not hold rd changes the `raw` and `rd` outputs and no other. For an ill-formed
`invalid` this is the model's choice (log entry 12). -/
def Obligations.DestinationIndexNotSpecial : Prop :=
  ∀ (i i' : Instr) (r : RegIndex) (s : State), i'.opcodeClass = i.opcodeClass → i.opcodeClass ≠ .BRANCH →
    i.opcodeClass ≠ .STORE → i'.fields = { i.fields with rd := r } →
      ∃ d d' : DecodedInstruction, exec i s = .next { s with record := some d } ∧
        exec i' s = .next { s with record := some d' } ∧ d' = { d with raw := d'.raw, rd := r }

/-! ### Immediates -/

/-- 40_decode.md R59: dispatching on the class and dispatching on raw[6:0] give the same immediate, the unknown values all
taking the zero. -/
def Obligations.ClassAndBitsDispatchAgree : Prop :=
  ∀ (s : State) (d : DecodedInstruction), Returns s d →
    d.immediate = immOf d.opcode s.raw ∧
    d.immediate =
      if s.raw.extractLsb 6 0 = 0x37#7 ∨ s.raw.extractLsb 6 0 = 0x17#7 then immU s.raw
      else if s.raw.extractLsb 6 0 = 0x6F#7 then immJ s.raw
      else if s.raw.extractLsb 6 0 = 0x63#7 then immB s.raw
      else if s.raw.extractLsb 6 0 = 0x23#7 then immS s.raw
      else if s.raw.extractLsb 6 0 ∈ [0x03#7, 0x67#7, 0x13#7, 0x73#7] then immI s.raw
      else 0#32

/-- 30_encoding.md R43: the U-type immediate, bit by bit and in mask form. -/
def Obligations.UImmediateBits : Prop :=
  ∀ (s : State) (d : DecodedInstruction), Returns s d → formatOf d.opcode = some .U →
    (∀ i, i < 32 → d.immediate.getLsbD i = if i < 12 then false else s.raw.getLsbD i) ∧
    d.immediate = s.raw &&& 0xFFFFF000#32

/-- 30_encoding.md R44: the J-type immediate, bit by bit and in mask form; it is an even number in
[-1048576, 1048574]. -/
def Obligations.JImmediateBits : Prop :=
  ∀ (s : State) (d : DecodedInstruction), Returns s d → formatOf d.opcode = some .J →
    (∀ i, i < 32 → d.immediate.getLsbD i =
      if i = 0 then false
      else if i ≤ 10 then s.raw.getLsbD (i + 20)
      else if i = 11 then s.raw.getLsbD 20
      else if i ≤ 19 then s.raw.getLsbD i
      else s.raw.getLsbD 31) ∧
    (let u := ((s.raw >>> 11) &&& 0x00100000#32) ||| (s.raw &&& 0x000FF000#32) |||
      ((s.raw >>> 9) &&& 0x00000800#32) ||| ((s.raw >>> 20) &&& 0x000007FE#32)
     d.immediate = if s.raw.getLsbD 31 then u ||| 0xFFE00000#32 else u) ∧
    signedReading d.immediate % 2 = 0 ∧ -1048576 ≤ signedReading d.immediate ∧ signedReading d.immediate ≤ 1048574

/-- 30_encoding.md R45: the B-type immediate, bit by bit and in mask form; it is an even number in [-4096, 4094]. -/
def Obligations.BImmediateBits : Prop :=
  ∀ (s : State) (d : DecodedInstruction), Returns s d → formatOf d.opcode = some .B →
    (∀ i, i < 32 → d.immediate.getLsbD i =
      if i = 0 then false
      else if i ≤ 4 then s.raw.getLsbD (i + 7)
      else if i ≤ 10 then s.raw.getLsbD (i + 20)
      else if i = 11 then s.raw.getLsbD 7
      else s.raw.getLsbD 31) ∧
    (let u := ((s.raw >>> 19) &&& 0x00001000#32) ||| ((s.raw <<< 4) &&& 0x00000800#32) |||
      ((s.raw >>> 20) &&& 0x000007E0#32) ||| ((s.raw >>> 7) &&& 0x0000001E#32)
     d.immediate = if s.raw.getLsbD 31 then u ||| 0xFFFFE000#32 else u) ∧
    signedReading d.immediate % 2 = 0 ∧ -4096 ≤ signedReading d.immediate ∧ signedReading d.immediate ≤ 4094

/-- 30_encoding.md R46: the S-type immediate, bit by bit and in mask form, bits [31:12] forced (90_conflicts.md C1); it is
a number in [-2048, 2047]. -/
def Obligations.SImmediateBits : Prop :=
  ∀ (s : State) (d : DecodedInstruction), Returns s d → formatOf d.opcode = some .S →
    (∀ i, i < 32 → d.immediate.getLsbD i =
      if i ≤ 4 then s.raw.getLsbD (i + 7) else if i ≤ 11 then s.raw.getLsbD (i + 20) else s.raw.getLsbD 31) ∧
    (let u := ((s.raw >>> 20) &&& 0x00000FE0#32) ||| ((s.raw >>> 7) &&& 0x0000001F#32)
     d.immediate = if s.raw.getLsbD 31 then u ||| 0xFFFFF000#32 else u) ∧
    -2048 ≤ signedReading d.immediate ∧ signedReading d.immediate ≤ 2047

/-- 30_encoding.md R47: the I-type immediate, bit by bit, in mask form and as the arithmetic right shift by 20, bits
[31:12] forced (90_conflicts.md C2); it is a number in [-2048, 2047]. -/
def Obligations.IImmediateBits : Prop :=
  ∀ (s : State) (d : DecodedInstruction), Returns s d → formatOf d.opcode = some .I →
    (∀ i, i < 32 → d.immediate.getLsbD i =
      if i ≤ 11 then s.raw.getLsbD (i + 20) else s.raw.getLsbD 31) ∧
    (let u := (s.raw >>> 20) &&& 0x00000FFF#32
     d.immediate = if s.raw.getLsbD 31 then u ||| 0xFFFFF000#32 else u) ∧
    d.immediate = s.raw.sshiftRight 20 ∧
    -2048 ≤ signedReading d.immediate ∧ signedReading d.immediate ≤ 2047

/-- 30_encoding.md R48, the sign-bit law: for each format with an immediate, bit 31 of the result and every bit above the
natural width equal raw[31], so no other input bit affects a forced bit. -/
def Obligations.SignBitLaw : Prop :=
  ∀ (s : State) (d : DecodedInstruction) (fmt : Format) (n : Nat), Returns s d → formatOf d.opcode = some fmt →
    naturalWidth fmt = some n →
      d.immediate.getLsbD 31 = s.raw.getLsbD 31 ∧
        ∀ i, n ≤ i → i < 32 → d.immediate.getLsbD i = s.raw.getLsbD 31

/-- 30_encoding.md R39: each bit of a word stands in the record where the format table's cell says, for every class that
has a format. -/
def Obligations.FormatTableHolds : Prop :=
  ∀ (s : State) (d : DecodedInstruction) (fmt : Format) (p : Nat), Returns s d → formatOf d.opcode = some fmt → p < 32 →
    cellValue d (cellOf fmt p) = s.raw.getLsbD p

/-! ### Decoding and encoding -/

/-- A step runs the decoded instruction: where the word on the input decodes to a well-formed instruction, a step is that
instruction's `exec`, with nothing around it. -/
def Obligations.StepRunsDecodedInstruction : Prop :=
  ∀ (s : State) (i : Instr), decode s.raw = i → i.wf = true → step s = exec i s

/-- Every word decodes to a well-formed instruction. -/
def Obligations.DecodedInstructionsWellFormed : Prop :=
  ∀ w : Word, (decode w).wf = true

/-- Decode of encode is the instruction, for every well-formed instruction, every operand at every value. -/
def Obligations.DecodeOfEncode : Prop :=
  ∀ i : Instr, i.wf = true → decode (encode i) = i

/-- Encode of decode is the word, for every word: decoding loses no bit. -/
def Obligations.EncodeOfDecode : Prop :=
  ∀ w : Word, encode (decode w) = w

/-- Presenting a well-formed instruction's word as a table row of 32 bits makes the decoder read it and the next step run it.
How a row of the table is presented is the model's choice (log entries 4 and 16). -/
def Obligations.PresentedInstructionRuns : Prop :=
  ∀ (i : Instr) (s : State), i.wf = true →
    decodeTableWord 32 (encode i).toNat = some i ∧
      step (s.withFetchWord 32 (encode i).toNat) = exec i (s.present (encode i))

/-- Bytes, under either byte order (92_eei_decisions.md D9 leaves it open): the four bytes of a word decode to its instruction
and leave the rest; four bytes or more always decode; fewer are refused. The block never sees bytes: this front end, its
refusing fewer than four and its leaving the rest, is the model's choice, log entry 6. -/
def Obligations.BytesDecodeUnderEitherOrder : Prop :=
  ∀ order : ByteOrder,
    (∀ (w : Word) (rest : List Byte), decodeBytes order (bytesOfWord order w ++ rest) = .ok (decode w, rest)) ∧
    ∀ bytes : List Byte,
      if 4 ≤ bytes.length then ∃ i : Instr, decodeBytes order bytes = .ok (i, bytes.drop 4)
      else decodeBytes order bytes = .error .truncated

/-- A word of each class, written out from the spec (95_test_vectors.md), decodes to the instruction it stands for. A
sanity statement. -/
def Obligations.SampleWordsDecode : Prop :=
  decode 0x123452B7#32 = .lui { rd := 5#5, funct3 := 5#3, rs1 := 8#5, rs2 := 3#5, funct7 := 0x09#7 } ∧
  decode 0xFF5FF0EF#32 = .jal { rd := 1#5, funct3 := 7#3, rs1 := 31#5, rs2 := 21#5, funct7 := 0x7F#7 } ∧
  decode 0xFE029CE3#32 = .branch { rd := 25#5, funct3 := 1#3, rs1 := 5#5, rs2 := 0#5, funct7 := 0x7F#7 } ∧
  decode 0xFE652E23#32 = .store { rd := 28#5, funct3 := 2#3, rs1 := 10#5, rs2 := 6#5, funct7 := 0x7F#7 } ∧
  decode 0xFFC52383#32 = .load { rd := 7#5, funct3 := 2#3, rs1 := 10#5, rs2 := 28#5, funct7 := 0x7F#7 } ∧
  decode 0x00C58533#32 = .op { rd := 10#5, funct3 := 0#3, rs1 := 11#5, rs2 := 12#5, funct7 := 0x00#7 } ∧
  decode 0x0FF0000F#32 = .invalid 0x0F#7 { rd := 0#5, funct3 := 0#3, rs1 := 0#5, rs2 := 31#5, funct7 := 0x07#7 }

/-! ### Invariants -/

/-- After every step, from every state, the record the caller holds is what stands on the output ports, and the input, which
the step left alone, is as before (10_state.md R15, R21). That State keeps the record a call returned is log entry 3, the
model's choice. -/
def Obligations.EveryStepSettles : Prop :=
  ∀ s t : State, step s = .next t → HoldsOutputs t ∧ t.raw = s.raw

/-- The output ports, and the record the caller holds if any, are always records the block can drive: every move of the
machine in its surroundings, a step or a new word on the input, keeps them so. The outputs follow a new word at once (10_state.md
R21). That State keeps one record for the caller and that presenting a word leaves it as it is, is the model's choice, log
entry 3 (R15 makes the record the caller's own, and no port). -/
def Obligations.OutputsStayCoherent : Prop :=
  ∀ s t : State, (∀ d, s.record = some d → Coherent d) → Move s t →
    Coherent t.out ∧ ∀ d, t.record = some d → Coherent d

/-- 70_reset_and_hazards.md R84: after reset the outputs are `decode(raw)` of the word on the input, and, as at every other
time, of any word then presented, which a step returns. The word the model has there at reset is its own choice (log entry
1); nothing here rests on which it is. -/
def Obligations.ResetOutputsAreDecoded : Prop :=
  State.reset.out = decodedRecord State.reset.raw ∧ State.reset.out.mnemonicLabel = label State.reset.out.opcode ∧
    ∀ w : Word, (State.reset.present w).out = decodedRecord w ∧ Returns (State.reset.present w) (decodedRecord w)

/-- 10_state.md R13, R21: no latch. Whatever the state was, as soon as a word is presented the outputs are that word's
record, a step then returns just that record, and the step leaves the outputs as they are. That a step is one call is log
entry 3, the model's choice. -/
def Obligations.OutputsFollowTheInput : Prop :=
  ∀ (s : State) (w : Word), (s.present w).out = decodedRecord w ∧
    ∃ t : State, step (s.present w) = .next t ∧ t.record = some (decodedRecord w) ∧ t.out = decodedRecord w
end

