-- ==== Sys2Proof/Laws/Decode.lean ====
section
/-! SUPPORT. What the field extraction, the classification and the encoder do: one lemma per function. -/

namespace Sys2Proof

/-! ### Bits of slices and of assembled words (30_encoding.md R37) -/

/-- Bit `i` of a word, read through a slice that covers it. -/
theorem getLsbD_slice (w : Word) {lo n i : Nat} (h₁ : lo ≤ i) (h₂ : i < lo + n) :
    (w.extractLsb' lo n).getLsbD (i - lo) = w.getLsbD i := by
  have : i - lo < n := by omega
  simp [this, Nat.add_sub_cancel' h₁]

/-- The bits of an assembled word: opcode field, rd, funct3, rs1, rs2 and funct7 from bit 0 up. -/
theorem getLsbD_toWord (f : Fields) (op : OpField) (i : Nat) :
    (f.toWord op).getLsbD i =
      if i < 7 then op.getLsbD i
      else if i < 12 then f.rd.getLsbD (i - 7)
      else if i < 15 then f.funct3.getLsbD (i - 12)
      else if i < 20 then f.rs1.getLsbD (i - 15)
      else if i < 25 then f.rs2.getLsbD (i - 20)
      else f.funct7.getLsbD (i - 25) := by
  change BitVec.getLsbD (w := 7 + 5 + 5 + 3 + 5 + 7) (f.funct7 ++ f.rs2 ++ f.rs1 ++ f.funct3 ++ f.rd ++ op) i = _
  simp only [BitVec.getLsbD_append, Nat.sub_sub]
  repeat' split
  all_goals first | rfl | omega

/-! ### The fields of an assembled word -/

@[simp] theorem opfieldOf_toWord (f : Fields) (op : OpField) : opfieldOf (f.toWord op) = op := by
  refine BitVec.eq_of_getLsbD_eq fun i hi => ?_
  simp (disch := omega) only [opfieldOf, BitVec.getLsbD_extractLsb', getLsbD_toWord, if_pos, hi]
  simp

@[simp] theorem rdOf_toWord (f : Fields) (op : OpField) : rdOf (f.toWord op) = f.rd := by
  refine BitVec.eq_of_getLsbD_eq fun i hi => ?_
  simp (disch := omega) only [rdOf, BitVec.getLsbD_extractLsb', getLsbD_toWord, if_pos, if_neg, hi]
  simp

@[simp] theorem funct3Of_toWord (f : Fields) (op : OpField) : funct3Of (f.toWord op) = f.funct3 := by
  refine BitVec.eq_of_getLsbD_eq fun i hi => ?_
  simp (disch := omega) only [funct3Of, BitVec.getLsbD_extractLsb', getLsbD_toWord, if_pos, if_neg, hi]
  simp

@[simp] theorem rs1Of_toWord (f : Fields) (op : OpField) : rs1Of (f.toWord op) = f.rs1 := by
  refine BitVec.eq_of_getLsbD_eq fun i hi => ?_
  simp (disch := omega) only [rs1Of, BitVec.getLsbD_extractLsb', getLsbD_toWord, if_pos, if_neg, hi]
  simp

@[simp] theorem rs2Of_toWord (f : Fields) (op : OpField) : rs2Of (f.toWord op) = f.rs2 := by
  refine BitVec.eq_of_getLsbD_eq fun i hi => ?_
  simp (disch := omega) only [rs2Of, BitVec.getLsbD_extractLsb', getLsbD_toWord, if_pos, if_neg, hi]
  simp

@[simp] theorem funct7Of_toWord (f : Fields) (op : OpField) : funct7Of (f.toWord op) = f.funct7 := by
  refine BitVec.eq_of_getLsbD_eq fun i hi => ?_
  simp (disch := omega) only [funct7Of, BitVec.getLsbD_extractLsb', getLsbD_toWord, if_neg, hi]
  simp

@[simp] theorem ofWord_toWord (f : Fields) (op : OpField) : Fields.ofWord (f.toWord op) = f := by
  simp [Fields.ofWord]

/-- The six fields tile the word: assembling what was extracted gives the word back. -/
@[simp] theorem toWord_ofWord (w : Word) : (Fields.ofWord w).toWord (opfieldOf w) = w := by
  refine BitVec.eq_of_getLsbD_eq fun i hi => ?_
  rw [getLsbD_toWord]
  simp only [Fields.ofWord, opfieldOf, rdOf, funct3Of, rs1Of, rs2Of, funct7Of]
  repeat' split
  · simp_all
  all_goals exact getLsbD_slice w (by omega) (by omega)

/-! ### Classification (30_encoding.md R40, R42) -/

/-- `classify` answers INVALID exactly on the values outside the table of known opcodes. -/
theorem classify_eq_invalid_iff (op : OpField) : classify op = .INVALID ↔ op ∉ knownOpcodes := by
  revert op; decide

/-- Each known class is the class of exactly one opcode. -/
theorem classify_eq_known_iff (op : OpField) :
    (classify op = .LUI ↔ op = 0x37#7) ∧ (classify op = .AUIPC ↔ op = 0x17#7) ∧
    (classify op = .JAL ↔ op = 0x6F#7) ∧ (classify op = .JALR ↔ op = 0x67#7) ∧
    (classify op = .BRANCH ↔ op = 0x63#7) ∧ (classify op = .LOAD ↔ op = 0x03#7) ∧
    (classify op = .STORE ↔ op = 0x23#7) ∧ (classify op = .OP_IMM ↔ op = 0x13#7) ∧
    (classify op = .OP ↔ op = 0x33#7) ∧ (classify op = .SYSTEM ↔ op = 0x73#7) := by
  revert op; decide

/-! ### The decoder's three outputs -/

/-- The decoded instruction is of the class of raw[6:0]. -/
@[simp] theorem opcodeClass_decode (w : Word) : (decode w).opcodeClass = classify (opfieldOf w) := by
  unfold decode
  split <;> simp [Instr.opcodeClass, *]

/-- The decoded instruction carries the five fixed fields, whatever its class. -/
@[simp] theorem fields_decode (w : Word) : (decode w).fields = Fields.ofWord w := by
  unfold decode
  split <;> rfl

end Sys2Proof
end

