-- ==== Sys2Proof/Laws/State.lean ====
section
/-! SUPPORT. One lemma per field of State per update, so that no proof unfolds a record update. -/

namespace Sys2Proof.Machine

@[simp] theorem present_raw (s : State) (w : Word) : (s.present w).raw = w := rfl
@[simp] theorem present_record (s : State) (w : Word) : (s.present w).record = s.record := rfl
@[simp] theorem deliver_raw (s : State) (d : DecodedInstruction) : (s.deliver d).raw = s.raw := rfl
@[simp] theorem deliver_record (s : State) (d : DecodedInstruction) : (s.deliver d).record = some d := rfl

/-- The outputs follow the input at once: presenting a word puts its record on the output ports. -/
@[simp] theorem present_out (s : State) (w : Word) : (s.present w).out = decodedRecord w := rfl
/-- Returning a record to the caller leaves the output ports alone. -/
@[simp] theorem deliver_out (s : State) (d : DecodedInstruction) : (s.deliver d).out = s.out := rfl

@[simp] theorem recordOf_raw (c : OpcodeClass) (imm w : Word) : (recordOf c imm w).raw = w := rfl
@[simp] theorem recordOf_opcode (c : OpcodeClass) (imm w : Word) : (recordOf c imm w).opcode = c := rfl
@[simp] theorem recordOf_rd (c : OpcodeClass) (imm w : Word) : (recordOf c imm w).rd = rdOf w := rfl
@[simp] theorem recordOf_rs1 (c : OpcodeClass) (imm w : Word) : (recordOf c imm w).rs1 = rs1Of w := rfl
@[simp] theorem recordOf_rs2 (c : OpcodeClass) (imm w : Word) : (recordOf c imm w).rs2 = rs2Of w := rfl
@[simp] theorem recordOf_funct3 (c : OpcodeClass) (imm w : Word) : (recordOf c imm w).funct3 = funct3Of w := rfl
@[simp] theorem recordOf_funct7 (c : OpcodeClass) (imm w : Word) : (recordOf c imm w).funct7 = funct7Of w := rfl
@[simp] theorem recordOf_immediate (c : OpcodeClass) (imm w : Word) : (recordOf c imm w).immediate = imm := rfl

/-- Presenting a word again replaces it. -/
@[simp] theorem present_present (s : State) (v w : Word) : (s.present v).present w = s.present w := rfl
/-- Returning a record again replaces the one held. -/
@[simp] theorem deliver_deliver (s : State) (d e : DecodedInstruction) : (s.deliver d).deliver e = s.deliver e := rfl

end Sys2Proof.Machine
end

