-- ==== Sys2Proof/Laws/Exec.lean ====
section
/-! SUPPORT. What one instruction and one step can do, said once: they return the record of a word to the caller,
and change nothing else. -/

namespace Sys2Proof.Machine

/-- The shared effect, inverted: if `emit` answers a state, it is the old one with the record of the word returned. -/
theorem emit_eq_next {c : OpcodeClass} {imm : Word → Word} {w : Word} {s t : State} (h : emit c imm w s = .next t) :
    t = s.deliver (recordOf c (imm w) w) := by
  simpa [emit] using h.symm

/-- Every instruction returns the record of its own word, for its own class, with that class's immediate. -/
theorem exec_eq (i : Instr) (s : State) :
    exec i s = .next (s.deliver (recordOf i.opcodeClass (immOf i.opcodeClass (encode i)) (encode i))) := by
  cases i <;> rfl

/-- `exec` inverted: all that a next state can be. -/
theorem exec_eq_next {i : Instr} {s t : State} (h : exec i s = .next t) :
    t = s.deliver (recordOf i.opcodeClass (immOf i.opcodeClass (encode i)) (encode i)) := by
  simpa [exec_eq] using h.symm

end Sys2Proof.Machine
end

