-- ==== Sys2Proof/Laws/Imm.lean ====
section
/-! SUPPORT. The five immediates, bit by bit: which bit of the word each bit of the result is (30_encoding.md R43-R48).
One lemma per immediate; the forced bits are the case of bit 31. -/

namespace Sys2Proof.Machine

/-- U-type (R43): bits [31:12] in place, the low 12 bits zero. -/
theorem getLsbD_immU (w : Word) {i : Nat} (hi : i < 32) :
    (immU w).getLsbD i = if i < 12 then false else w.getLsbD i := by
  change BitVec.getLsbD (w := 20 + 12) (w.extractLsb' 12 20 ++ 0#12) i = _
  rw [BitVec.getLsbD_append]
  split
  · simp
  · exact getLsbD_slice w (by omega) (by omega)

/-- I-type (R47): bits [30:20] to bits [10:0], every bit from 11 up is bit 31. -/
theorem getLsbD_immI (w : Word) {i : Nat} (hi : i < 32) :
    (immI w).getLsbD i = w.getLsbD (if i < 11 then i + 20 else 31) := by
  have hm : (w.extractLsb' 20 12).msb = w.getLsbD 31 := by simp [BitVec.msb_eq_getLsbD_last]
  simp only [immI, BitVec.getLsbD_signExtend, BitVec.getLsbD_extractLsb', hm]
  by_cases h : i < 11
  · simp (disch := omega) [h, hi, Nat.add_comm, show i < 12 by omega]
  · by_cases h' : i = 11
    · subst h'; simp
    · simp [h, hi, show ¬ i < 12 by omega]

/-- S-type (R46): bits [11:7] to bits [4:0], bits [30:25] to bits [10:5], every bit from 11 up is bit 31. -/
theorem getLsbD_immS (w : Word) {i : Nat} (hi : i < 32) :
    (immS w).getLsbD i = w.getLsbD (if i < 5 then i + 7 else if i < 11 then i + 20 else 31) := by
  simp only [immS, BitVec.getLsbD_signExtend, BitVec.msb_eq_getLsbD_last, BitVec.getLsbD_append,
    BitVec.getLsbD_extractLsb']
  by_cases h : i < 5
  · simp [h, hi, Nat.add_comm, show i < 12 by omega]
  · by_cases h' : i < 11
    · simp [h, h', hi, show i < 12 by omega, show i - 5 < 7 by omega, show 25 + (i - 5) = i + 20 by omega]
    · by_cases h'' : i = 11
      · subst h''; simp
      · simp [h, h', hi, show ¬ i < 12 by omega]

/-- B-type (R45): bit 0 zero, bits [11:8] to bits [4:1], bits [30:25] to bits [10:5], bit 7 to bit 11, every bit from
12 up is bit 31. -/
theorem getLsbD_immB (w : Word) {i : Nat} (hi : i < 32) :
    (immB w).getLsbD i =
      if i = 0 then false
      else w.getLsbD (if i < 5 then i + 7 else if i < 11 then i + 20 else if i = 11 then 7 else 31) := by
  have hm : (w.extractLsb' 31 1 ++ w.extractLsb' 7 1 ++ w.extractLsb' 25 6 ++ w.extractLsb' 8 4 ++ 0#1).msb =
      w.getLsbD 31 := by
    simp only [BitVec.msb_eq_getLsbD_last, BitVec.getLsbD_append, BitVec.getLsbD_extractLsb']
    simp
  simp only [immB, BitVec.getLsbD_signExtend, hm, BitVec.getLsbD_append, BitVec.getLsbD_extractLsb', hi, decide_true,
    Bool.true_and]
  by_cases h0 : i = 0
  · subst h0; simp
  by_cases h1 : i < 5
  · simp [h0, h1, show i < 13 by omega, show i - 1 < 4 by omega, show 8 + (i - 1) = i + 7 by omega]
  by_cases h2 : i < 11
  · simp [h0, h1, h2, show i < 13 by omega, show ¬ i - 1 < 4 by omega, show i - 1 - 4 < 6 by omega,
      show 25 + (i - 1 - 4) = i + 20 by omega]
  by_cases h3 : i = 11
  · subst h3; simp
  by_cases h4 : i = 12
  · subst h4; simp
  simp [h0, h1, h2, h3, show ¬ i < 13 by omega]

/-- J-type (R44): bit 0 zero, bits [30:21] to bits [10:1], bit 20 to bit 11, bits [19:12] in place, every bit from 20 up
is bit 31. -/
theorem getLsbD_immJ (w : Word) {i : Nat} (hi : i < 32) :
    (immJ w).getLsbD i =
      if i = 0 then false
      else w.getLsbD (if i < 11 then i + 20 else if i = 11 then 20 else if i < 20 then i else 31) := by
  have hm : (w.extractLsb' 31 1 ++ w.extractLsb' 12 8 ++ w.extractLsb' 20 1 ++ w.extractLsb' 21 10 ++ 0#1).msb =
      w.getLsbD 31 := by
    simp only [BitVec.msb_eq_getLsbD_last, BitVec.getLsbD_append, BitVec.getLsbD_extractLsb']
    simp
  simp only [immJ, BitVec.getLsbD_signExtend, hm, BitVec.getLsbD_append, BitVec.getLsbD_extractLsb', hi, decide_true,
    Bool.true_and]
  by_cases h0 : i = 0
  · subst h0; simp
  by_cases h1 : i < 11
  · simp [h0, h1, show i < 21 by omega, show i - 1 < 10 by omega, show 21 + (i - 1) = i + 20 by omega]
  by_cases h2 : i = 11
  · subst h2; simp
  by_cases h3 : i < 20
  · simp [h0, h1, h2, h3, show i < 21 by omega, show ¬ i - 1 < 10 by omega, show ¬ i - 1 - 10 < 1 by omega,
      show i - 1 - 10 - 1 < 8 by omega, show 12 + (i - 1 - 10 - 1) = i by omega]
  by_cases h4 : i = 20
  · subst h4; simp
  simp [h0, h1, h2, h3, show ¬ i < 21 by omega]

/-! ### The signed reading and the sign-bit law -/

/-- The spec's signed reading (00_scope.md R9) is the library's two's complement. -/
theorem signedReading_eq_toInt (v : Word) : signedReading v = v.toInt := by
  have h : v.getLsbD 31 = decide (2 ^ 31 ≤ v.toNat) := (BitVec.msb_eq_getLsbD_last v).symm.trans (BitVec.msb_eq_decide v)
  unfold signedReading
  rw [h, BitVec.toInt_eq_toNat_cond]
  by_cases hv : 2 ^ 31 ≤ v.toNat
  · rw [decide_eq_true hv, if_neg (by omega)]
    rfl
  · rw [decide_eq_false hv, if_pos (by omega)]
    change (v.toNat : Int) - 2 ^ 32 * 0 = v.toNat
    omega

/-- The sign-bit law (R48) for the immediate of a class: every bit of the result from the natural width's top bit up is
bit 31 of the word. -/
theorem immOf_forced (c : OpcodeClass) (w : Word) {fmt : Format} {n i : Nat} (hf : formatOf c = some fmt)
    (hn : naturalWidth fmt = some n) (h₁ : n ≤ i + 1) (h₂ : i < 32) : (immOf c w).getLsbD i = w.getLsbD 31 := by
  cases c <;> cases hf <;> cases hn <;>
    simp (disch := omega) only [immOf, getLsbD_immU, getLsbD_immJ, getLsbD_immB, getLsbD_immS, getLsbD_immI,
      if_neg] <;>
    first | rfl | (congr 1; omega)

end Sys2Proof.Machine
end

