-- ==== Sys2Proof/Laws/PerInstr.lean ====
section
/-! SUPPORT. The per-instruction family EncodePlaces: the word the encoder writes carries, at R37's positions, the
instruction's fields, and in raw[6:0] an opcode field whose class is the instruction's. -/

namespace Sys2Proof.Laws.EncodePlaces

/-- What is said of each well-formed instruction's word. -/
def Statement (i : Instr) : Prop :=
  i.wf = true → Fields.ofWord (encode i) = i.fields ∧ classify (opfieldOf (encode i)) = i.opcodeClass

theorem lui (f : Fields) : Statement (.lui f) := fun _ => ⟨ofWord_toWord f _, by simp [encode]; rfl⟩
theorem auipc (f : Fields) : Statement (.auipc f) := fun _ => ⟨ofWord_toWord f _, by simp [encode]; rfl⟩
theorem jal (f : Fields) : Statement (.jal f) := fun _ => ⟨ofWord_toWord f _, by simp [encode]; rfl⟩
theorem jalr (f : Fields) : Statement (.jalr f) := fun _ => ⟨ofWord_toWord f _, by simp [encode]; rfl⟩
theorem branch (f : Fields) : Statement (.branch f) := fun _ => ⟨ofWord_toWord f _, by simp [encode]; rfl⟩
theorem load (f : Fields) : Statement (.load f) := fun _ => ⟨ofWord_toWord f _, by simp [encode]; rfl⟩
theorem store (f : Fields) : Statement (.store f) := fun _ => ⟨ofWord_toWord f _, by simp [encode]; rfl⟩
theorem opImm (f : Fields) : Statement (.opImm f) := fun _ => ⟨ofWord_toWord f _, by simp [encode]; rfl⟩
theorem op (f : Fields) : Statement (.op f) := fun _ => ⟨ofWord_toWord f _, by simp [encode]; rfl⟩
theorem system (f : Fields) : Statement (.system f) := fun _ => ⟨ofWord_toWord f _, by simp [encode]; rfl⟩

theorem invalid (opfield : OpField) (f : Fields) : Statement (.invalid opfield f) := by
  intro h
  refine ⟨ofWord_toWord f _, ?_⟩
  simpa [encode, Instr.opcodeClass, classify_eq_invalid_iff, Instr.wf] using h

end Sys2Proof.Laws.EncodePlaces
end

