-- ==== Sys2Proof/Tests/Slice0.lean ====
section
/-! SUPPORT. Tests of the model against words and results written out from the spec (30_encoding.md, 95_test_vectors.md),
and, for every statement with hypotheses, a witness that meets all of them. -/

namespace Sys2Proof.Tests

open Sys2Proof.Machine

/-! ### Well-formedness: the one check refuses each known opcode in an `invalid` -/

/-- Fields for the terms below. -/
def someFields : Fields := { rd := 1#5, funct3 := 2#3, rs1 := 3#5, rs2 := 4#5, funct7 := 5#7 }

theorem test_wf_refuses_known_opcode_in_invalid : (knownOpcodes.map fun op => (Instr.invalid op someFields).wf) =
    List.replicate 10 false := by decide
theorem test_wf_accepts_unknown_opcode : (Instr.invalid 0x0F#7 someFields).wf = true := by decide
theorem test_wf_accepts_known_class : (Instr.lui someFields).wf = true := by decide

/-! ### Decoding: a word of each row, written out field by field from 30_encoding.md R37 and R40, high bits first -/

theorem test_decode_lui : decode 0b0001001_00011_01000_101_00101_0110111#32 =
    .lui { rd := 5#5, funct3 := 5#3, rs1 := 8#5, rs2 := 3#5, funct7 := 0x09#7 } := by decide
theorem test_decode_auipc : decode 0b1111111_11111_11111_111_00011_0010111#32 =
    .auipc { rd := 3#5, funct3 := 7#3, rs1 := 31#5, rs2 := 31#5, funct7 := 0x7F#7 } := by decide
theorem test_decode_jal : decode 0b1111111_10101_11111_111_00001_1101111#32 =
    .jal { rd := 1#5, funct3 := 7#3, rs1 := 31#5, rs2 := 21#5, funct7 := 0x7F#7 } := by decide
theorem test_decode_jalr : decode 0b1000000_00000_00001_000_00001_1100111#32 =
    .jalr { rd := 1#5, funct3 := 0#3, rs1 := 1#5, rs2 := 0#5, funct7 := 0x40#7 } := by decide
theorem test_decode_branch : decode 0b1111111_00000_00101_001_11001_1100011#32 =
    .branch { rd := 25#5, funct3 := 1#3, rs1 := 5#5, rs2 := 0#5, funct7 := 0x7F#7 } := by decide
theorem test_decode_load : decode 0b1111111_11100_01010_010_00111_0000011#32 =
    .load { rd := 7#5, funct3 := 2#3, rs1 := 10#5, rs2 := 28#5, funct7 := 0x7F#7 } := by decide
theorem test_decode_store : decode 0b1111111_00110_01010_010_11100_0100011#32 =
    .store { rd := 28#5, funct3 := 2#3, rs1 := 10#5, rs2 := 6#5, funct7 := 0x7F#7 } := by decide
theorem test_decode_opImm : decode 0b0100000_00001_01101_101_01100_0010011#32 =
    .opImm { rd := 12#5, funct3 := 5#3, rs1 := 13#5, rs2 := 1#5, funct7 := 0x20#7 } := by decide
theorem test_decode_op : decode 0b0100000_01011_01010_000_01010_0110011#32 =
    .op { rd := 10#5, funct3 := 0#3, rs1 := 10#5, rs2 := 11#5, funct7 := 0x20#7 } := by decide
theorem test_decode_system : decode 0b1111000_10100_00000_010_00001_1110011#32 =
    .system { rd := 1#5, funct3 := 2#3, rs1 := 0#5, rs2 := 20#5, funct7 := 0x78#7 } := by decide
theorem test_decode_invalid : decode 0b0000111_11111_00000_000_00000_0001111#32 =
    .invalid 0x0F#7 { rd := 0#5, funct3 := 0#3, rs1 := 0#5, rs2 := 31#5, funct7 := 0x07#7 } := by decide

/-- The encoder writes the worked word of 95_test_vectors.md section 1, case 1. -/
theorem test_encode_op : encode (.op { rd := 10#5, funct3 := 0#3, rs1 := 11#5, rs2 := 12#5, funct7 := 0#7 }) =
    0x00C58533#32 := by decide

/-- Bytes under either order (92_eei_decisions.md D9), and too few of them. -/
theorem test_bytes_little : decodeBytes .little [0x33#8, 0x85#8, 0xC5#8, 0x00#8, 0xFF#8] =
    .ok (decode 0x00C58533#32, [0xFF#8]) := by rfl
theorem test_bytes_big : decodeBytes .big [0x00#8, 0xC5#8, 0x85#8, 0x33#8] = .ok (decode 0x00C58533#32, []) := by rfl
theorem test_bytes_truncated : decodeBytes .little [0x33#8, 0x85#8, 0xC5#8] = .error .truncated := by rfl

/-- The host's table word: bits from `nbits` up are 0, and more than 32 bits are no word. -/
theorem test_table_word_low_bits : decodeTableWord 8 0xFFFFFF37 = some (decode 0x00000037#32) := by decide
theorem test_table_word_too_long : decodeTableWord 33 0x37 = none := by decide

/-! ### One step per class: the class and the immediate of a word of 95_test_vectors.md -/

/-- The class and the immediate a step returns for a word, from reset. -/
def classAndImmediate (w : Word) : Option (OpcodeClass × Word) :=
  match step (State.reset.present w) with
  | .next t => t.record.map fun d => (d.opcode, d.immediate)
  | .fault _ => none
  | .refused _ => none

theorem test_lui_in_place : classAndImmediate 0xDEADB2B7#32 = some (.LUI, 0xDEADB000#32) := by decide
theorem test_auipc_most_negative : classAndImmediate 0x80000017#32 = some (.AUIPC, 0x80000000#32) := by decide
theorem test_jal_bit_20_to_11 : classAndImmediate 0x0010006F#32 = some (.JAL, 0x00000800#32) := by decide
theorem test_jal_mixed : classAndImmediate 0xABCDEFEF#32 = some (.JAL, 0xFFFDE2BC#32) := by decide
theorem test_branch_bit_7_to_11 : classAndImmediate 0x000000E3#32 = some (.BRANCH, 0x00000800#32) := by decide
theorem test_branch_mixed : classAndImmediate 0xABCDEFE3#32 = some (.BRANCH, 0xFFFFFABE#32) := by decide
theorem test_store_forces_bit_12 : classAndImmediate 0x80000023#32 = some (.STORE, 0xFFFFF800#32) := by decide
theorem test_store_mixed : classAndImmediate 0xABCDEFA3#32 = some (.STORE, 0xFFFFFABF#32) := by decide
theorem test_load_forces_bit_12 : classAndImmediate 0x80000003#32 = some (.LOAD, 0xFFFFF800#32) := by decide
theorem test_jalr_reserved_funct3 : classAndImmediate 0x0000F067#32 = some (.JALR, 0x00000000#32) := by decide
theorem test_opImm_srai_keeps_funct7 : classAndImmediate 0x4016D613#32 = some (.OP_IMM, 0x00000401#32) := by decide
theorem test_system_csr_sign_extended : classAndImmediate 0xF14020F3#32 = some (.SYSTEM, 0xFFFFFF14#32) := by decide
theorem test_op_has_no_immediate : classAndImmediate 0xFFFFFFB3#32 = some (.OP, 0x00000000#32) := by decide
theorem test_invalid_near_lui : classAndImmediate 0xFFFFF0B6#32 = some (.INVALID, 0x00000000#32) := by decide

/-- The signed reading of the smallest J-type immediate (95_test_vectors.md section 2.2, row 6; 00_scope.md R9). -/
theorem test_signed_reading : signedReading 0xFFF00000#32 = -1048576 := by decide

/-- An INVALID word still has its fields extracted (95_test_vectors.md section 2.8, row 2). -/
theorem test_invalid_keeps_fields : (decodedRecord 0xFFFFFFFF#32).rd = 31#5 ∧ (decodedRecord 0xFFFFFFFF#32).funct7 = 0x7F#7 := by
  decide

/-! ### Witnesses: states and operands that meet the hypotheses of each statement together -/

/-- The state after a call on a word. -/
def calledOn (w : Word) : State := { raw := w, record := some (decodedRecord w) }

/-- A step from reset with a word presented answers the state after a call on it: the witness of `step s = .next t`. -/
theorem step_present (w : Word) (h : encode (decode w) = w) : step (State.reset.present w) = .next (calledOn w) := by
  simp [step, exec_eq, h, calledOn, decodedRecord, State.deliver, State.present]

/-- The witness of `Returns s d`. -/
theorem returns_present (w : Word) (h : encode (decode w) = w) : Returns (State.reset.present w) (decodedRecord w) :=
  ⟨calledOn w, step_present w h, rfl, rfl⟩

theorem witness_NoImmediateTypesComplete : (0x0F#7 : OpField) ∉ knownOpcodes := by decide

theorem witness_word_records :
    (State.reset.present 0x80000037#32).raw.extractLsb 6 0 = 0x37#7 ∧
    (State.reset.present 0x80000037#32).raw.getLsbD 31 = true ∧
    (State.reset.present 0x80000017#32).raw.extractLsb 6 0 = 0x17#7 ∧
    (State.reset.present 0x8000006F#32).raw.extractLsb 6 0 = 0x6F#7 ∧
    (State.reset.present 0x80000063#32).raw.extractLsb 6 0 = 0x63#7 ∧
    (State.reset.present 0x80000023#32).raw.extractLsb 6 0 = 0x23#7 ∧
    (State.reset.present 0x80000003#32).raw.extractLsb 6 0 = 0x03#7 ∧
    (State.reset.present 0x80000067#32).raw.extractLsb 6 0 = 0x67#7 ∧
    (State.reset.present 0x80000013#32).raw.extractLsb 6 0 = 0x13#7 ∧
    (State.reset.present 0xF14020F3#32).raw.extractLsb 6 0 = 0x73#7 ∧
    (State.reset.present 0xFFFFFFB3#32).raw.extractLsb 6 0 = 0x33#7 := by decide

theorem witness_InvalidWordRecord : (State.reset.present 0xFFFFFFFF#32).raw.extractLsb 6 0 ∉
    [0x37#7, 0x17#7, 0x6F#7, 0x67#7, 0x63#7, 0x03#7, 0x23#7, 0x13#7, 0x33#7, 0x73#7] := by decide

/-- Well-formed instructions of a known class and of INVALID. -/
theorem witness_DecodeIsTotal : (Instr.lui someFields).wf = true ∧ (Instr.invalid 0x0F#7 someFields).wf = true := by decide

theorem witness_IllFormedInvalidCompletes : (0x37#7 : OpField) ∈ knownOpcodes ∧ (0x73#7 : OpField) ∈ knownOpcodes := by
  decide

/-- Two states with one word on the input and different records returned before. -/
theorem witness_OutputsReadOnlyTheWord : (State.reset.present 0x37#32).raw = (calledOn 0x37#32).raw ∧
    State.reset.present 0x37#32 ≠ calledOn 0x37#32 := by decide

theorem witness_InstructionFrame : ∃ t t' : State, exec (.lui someFields) State.reset = .next t ∧
    exec (.lui someFields) (calledOn 0x6F#32) = .next t' ∧ State.reset ≠ calledOn 0x6F#32 :=
  ⟨_, _, exec_eq _ _, exec_eq _ _, by decide⟩

/-- For StepIdempotent and EveryStepSettles, whose one hypothesis is that a step answers. -/
theorem witness_step_answers : step (State.reset.present 0xABCDEFEF#32) = .next (calledOn 0xABCDEFEF#32) :=
  step_present _ (by decide)

/-- For ClassFollowsTheTable, RawPassesThrough, FieldsAtFixedPositions and ClassAndBitsDispatchAgree, whose one hypothesis is
that a step returns a record. -/
theorem witness_step_returns : Returns (State.reset.present 0xABCDEFEF#32) (decodedRecord 0xABCDEFEF#32) :=
  returns_present _ (by decide)

theorem witness_PresentingOrderImmaterial : [0x37#32, 0x6F#32].Perm [0x6F#32, 0x37#32] := List.Perm.swap _ _ _

theorem witness_ClassesPartitionOpcodes : OpcodeClass.SYSTEM ≠ .INVALID ∧ classify 0x73#7 = .SYSTEM := by decide

theorem witness_NoKnownEncodingRejected : (State.reset.present 0x33#32).raw.extractLsb 6 0 ∈ knownOpcodes := by decide

/-- Each of the three marks alone, where the others do not hold (a 64-bit mark's low bits are 11, a 48-bit one's are not
the 64-bit pattern). -/
theorem witness_OtherLengthsAreInvalid :
    (State.reset.present 0xFFFFFFFE#32).raw.extractLsb 1 0 ≠ 0b11#2 ∧
    (State.reset.present 0x0000001F#32).raw.extractLsb 5 0 = 0b011111#6 ∧
    (State.reset.present 0x0000003F#32).raw.extractLsb 6 0 = 0b0111111#7 ∧
    0x37#7 ∈ knownOpcodes := by decide

theorem witness_FencesAndUnlistedOpcodesAreInvalid :
    (State.reset.present 0x0FF0000F#32).raw.extractLsb 6 0 = 0x0F#7 ∧
    (State.reset.present 0x0000100F#32).raw.extractLsb 6 0 = 0x0F#7 ∧
    (State.reset.present 0x0000003B#32).raw.extractLsb 6 0 = 0x3B#7 := by decide

theorem witness_TrapReturnAndWaitWordsAreSystem : (0x10500073#32, 0x105#32) ∈
    [(0x30200073#32, 0x302#32), (0x10200073#32, 0x102#32), (0x10500073#32, 0x105#32)] := by decide

theorem witness_BusCodesNameClasses : 0xB ≤ (0xB#4).toNat ∧ 0xB ≤ (0xF#4).toNat := by decide

/-- A LOAD and a JALR word with the same bits [31:7], of one format, and a STORE word with them, of another. -/
theorem witness_FieldsIndependentOfOpcode :
    (State.reset.present 0xABCDEF83#32).raw.extractLsb 31 7 = (State.reset.present 0xABCDEFE7#32).raw.extractLsb 31 7 ∧
    (State.reset.present 0xABCDEF83#32).raw.extractLsb 31 7 = (State.reset.present 0xABCDEFA3#32).raw.extractLsb 31 7 ∧
    Returns (State.reset.present 0xABCDEF83#32) (decodedRecord 0xABCDEF83#32) ∧
    Returns (State.reset.present 0xABCDEFE7#32) (decodedRecord 0xABCDEFE7#32) ∧
    Returns (State.reset.present 0xABCDEFA3#32) (decodedRecord 0xABCDEFA3#32) ∧
    formatOf (decodedRecord 0xABCDEF83#32).opcode = formatOf (decodedRecord 0xABCDEFE7#32).opcode :=
  ⟨by decide, by decide, returns_present _ (by decide), returns_present _ (by decide), returns_present _ (by decide), by decide⟩

theorem witness_KnownRecordDeterminesWord :
    Returns (State.reset.present 0x123452B7#32) (decodedRecord 0x123452B7#32) ∧
    (decodedRecord 0x123452B7#32).opcode ≠ .INVALID ∧
    SameFields (decodedRecord 0x123452B7#32) (decodedRecord 0x123452B7#32) :=
  ⟨returns_present _ (by decide), by decide, ⟨rfl, rfl, rfl, rfl, rfl⟩⟩

/-- An OP_IMM with destination 1 and the hint with destination 0. -/
theorem witness_DestinationIndexNotSpecial :
    (Instr.opImm { someFields with rd := 0#5 }).opcodeClass = (Instr.opImm someFields).opcodeClass ∧
    (Instr.opImm someFields).opcodeClass ≠ .BRANCH ∧ (Instr.opImm someFields).opcodeClass ≠ .STORE ∧
    (Instr.opImm { someFields with rd := 0#5 }).fields = { (Instr.opImm someFields).fields with rd := 0#5 } := by decide

/-- For UImmediateBits to IImmediateBits and SignBitLaw: a step on a word of each format with bit 31 set, its format and
natural width. -/
theorem witness_immediate_bits :
    Returns (State.reset.present 0xFFFFF037#32) (decodedRecord 0xFFFFF037#32) ∧
    formatOf (decodedRecord 0xFFFFF037#32).opcode = some .U ∧ naturalWidth .U = some 32 ∧
    Returns (State.reset.present 0x8000006F#32) (decodedRecord 0x8000006F#32) ∧
    formatOf (decodedRecord 0x8000006F#32).opcode = some .J ∧ naturalWidth .J = some 21 ∧
    Returns (State.reset.present 0x80000063#32) (decodedRecord 0x80000063#32) ∧
    formatOf (decodedRecord 0x80000063#32).opcode = some .B ∧ naturalWidth .B = some 13 ∧
    Returns (State.reset.present 0x80000023#32) (decodedRecord 0x80000023#32) ∧
    formatOf (decodedRecord 0x80000023#32).opcode = some .S ∧ naturalWidth .S = some 12 ∧
    Returns (State.reset.present 0x80000003#32) (decodedRecord 0x80000003#32) ∧
    formatOf (decodedRecord 0x80000003#32).opcode = some .I ∧ naturalWidth .I = some 12 :=
  ⟨returns_present _ (by decide), by decide, by decide, returns_present _ (by decide), by decide, by decide,
    returns_present _ (by decide), by decide, by decide, returns_present _ (by decide), by decide, by decide,
    returns_present _ (by decide), by decide, by decide⟩

/-- An R-format word, bit 0 and bit 31. -/
theorem witness_FormatTableHolds : Returns (State.reset.present 0x40B50533#32) (decodedRecord 0x40B50533#32) ∧
    formatOf (decodedRecord 0x40B50533#32).opcode = some .R ∧ 0 < 32 ∧ 31 < 32 :=
  ⟨returns_present _ (by decide), by decide, by decide, by decide⟩

/-- For StepRunsDecodedInstruction, DecodeOfEncode and PresentedInstructionRuns. -/
theorem witness_decoded_well_formed :
    decode (State.reset.present 0x00000037#32).raw = .lui { rd := 0#5, funct3 := 0#3, rs1 := 0#5, rs2 := 0#5, funct7 := 0#7 } ∧
    (decode 0x00000037#32).wf = true ∧ (Instr.invalid 0x7F#7 someFields).wf = true := by decide

theorem witness_BytesDecodeUnderEitherOrder : 4 ≤ [0#8, 0#8, 0#8, 0#8].length ∧ ¬ 4 ≤ [0#8, 0#8, 0#8].length := by decide

theorem witness_OutputsStayCoherent : (∀ d, State.reset.record = some d → Coherent d) ∧
    (∀ d, (calledOn 0x6F#32).record = some d → Coherent d) ∧
    Move (calledOn 0x6F#32) ((calledOn 0x6F#32).present 0x37#32) ∧
    Move (State.reset.present 0x37#32) (calledOn 0x37#32) := by
  refine ⟨fun d h => by simp [State.reset] at h, fun d h => ?_, .present _ _, .step _ _ (step_present _ (by decide))⟩
  rw [← Option.some.inj (show some (decodedRecord 0x6F#32) = some d from h)]
  rfl

/-- The outputs follow the input at once, and the record a call returned stays with the caller (log entry 3). -/
theorem test_outputs_follow_input : ((calledOn 0x6F#32).present 0x37#32).out.opcode = .LUI ∧
    ((calledOn 0x6F#32).present 0x37#32).record = some (decodedRecord 0x6F#32) := by decide

end Sys2Proof.Tests
end

section
/-! What one step answers, as a function of the ports: the record on the output ports, returned to the caller. -/

namespace Sys2Proof

/-- Decoding loses no bit of the word: an instruction of a known class has that class's one opcode (30_encoding.md R42),
and `invalid` keeps its own opcode field. -/
@[simp] theorem encode_decode (w : Word) : encode (decode w) = w := by
  have tiled : (Fields.ofWord w).toWord (opfieldOf w) = w := toWord_ofWord w
  unfold decode
  split <;> simp_all only [classify_eq_known_iff, encode]

namespace Machine

/-- A step returns the record that stands on the output ports, and changes nothing else. -/
theorem step_eq (s : State) : step s = .next (s.deliver s.out) := by
  simp only [step, exec_eq, opcodeClass_decode, encode_decode, State.out, decodedRecord]

/-- The outputs are a function of the input port. -/
theorem out_eq_of_raw_eq {s s' : State} (h : s.raw = s'.raw) : s.out = s'.out :=
  congrArg decodedRecord h

/-- Returning a record overwrites the one held, so only the input port of the old state is left in the new one. -/
theorem deliver_eq_of_raw_eq {s s' : State} (h : s.raw = s'.raw) (d : DecodedInstruction) :
    s.deliver d = s'.deliver d := by
  simp only [State.deliver, h]

end Machine
end Sys2Proof
end

section
/-! The statements of 00_scope.md. -/

namespace Sys2Proof

open Sys2Proof.Machine

/-- Settles O20: a step is a function of the outputs and the input port, and the outputs one of the input port. -/
theorem outputsReadOnlyTheWord : Obligations.OutputsReadOnlyTheWord := by
  intro s s' hraw
  have hout : s.out = s'.out := out_eq_of_raw_eq hraw
  have hdeliver : s'.deliver s'.out = s.deliver s.out := by
    rw [← hout, deliver_eq_of_raw_eq hraw]
  exact ⟨hout, s.deliver s.out, step_eq s, by rw [step_eq, hdeliver]⟩

end Sys2Proof
end

section
/-! What a record is made of: the record a step returns is the one on the output ports, and the fields
and the immediate of a word are read from its bits above the opcode field only. -/

namespace Sys2Proof

open Sys2Proof.Machine

/-- The one record a step returns is the record on the output ports. -/
theorem returns_iff_eq_out {s : State} {d : DecodedInstruction} : Returns s d ↔ d = s.out := by
  constructor
  · rintro ⟨t, hstep, -, hrecord⟩
    rw [step_eq, Host.Outcome.next.injEq] at hstep
    rw [← hstep, deliver_record, Option.some.injEq] at hrecord
    exact hrecord.symm
  · rintro rfl
    exact ⟨s.deliver s.out, step_eq s, rfl, rfl⟩

/-- The records of two words hold the same field outputs exactly when the decoder extracts the same fields from them. -/
theorem sameFields_decodedRecord_iff {w w' : Word} :
    SameFields (decodedRecord w) (decodedRecord w') ↔ Fields.ofWord w = Fields.ofWord w' := by
  simp only [SameFields, decodedRecord, recordOf_rd, recordOf_funct3, recordOf_rs1, recordOf_rs2, recordOf_funct7,
    Fields.ofWord, Fields.mk.injEq]

/-! ### The word of an instruction -/

/-- Every instruction's word is its fields over some opcode field. -/
theorem exists_encode_eq_toWord (i : Instr) : ∃ op : OpField, encode i = i.fields.toWord op := by
  cases i <;> exact ⟨_, rfl⟩

/-- The decoder extracts from an instruction's word the fields it was made of, from an ill-formed one's too. -/
@[simp] theorem ofWord_encode (i : Instr) : Fields.ofWord (encode i) = i.fields := by
  obtain ⟨op, hword⟩ := exists_encode_eq_toWord i
  rw [hword, ofWord_toWord]

/-- The record of an instruction's word holds that instruction's fields. -/
theorem recordOf_encode (i : Instr) (c : OpcodeClass) (imm : Word) : recordOf c imm (encode i) =
    { raw := encode i, opcode := c, rd := i.fields.rd, rs1 := i.fields.rs1, rs2 := i.fields.rs2,
      funct3 := i.fields.funct3, funct7 := i.fields.funct7, immediate := imm } := by
  rw [← ofWord_encode i]
  rfl

/-! ### Words that agree from some bit up -/

/-- The two words have the same bits from bit `n` up. -/
def AgreeFrom (n : Nat) (w w' : Word) : Prop := ∀ i, n ≤ i → w.getLsbD i = w'.getLsbD i

/-- Words with the same bits [31:7] agree from bit 7 up. -/
theorem agreeFrom_of_extractLsb_eq {w w' : Word} (h : w.extractLsb 31 7 = w'.extractLsb 31 7) : AgreeFrom 7 w w' := by
  intro i hi
  by_cases hlt : i < 32
  · calc w.getLsbD i = (w.extractLsb 31 7).getLsbD (i - 7) := (getLsbD_slice w hi hlt).symm
      _ = (w'.extractLsb 31 7).getLsbD (i - 7) := by rw [h]
      _ = w'.getLsbD i := getLsbD_slice w' hi hlt
  · rw [BitVec.getLsbD_of_ge w i (by omega), BitVec.getLsbD_of_ge w' i (by omega)]

/-- Neither the destination nor the opcode field reaches bit 12 of the word. -/
theorem agreeFrom_toWord_setRd (f : Fields) (r : RegIndex) (op op' : OpField) :
    AgreeFrom 12 (Fields.toWord { f with rd := r } op') (f.toWord op) := by
  intro i hi
  simp only [getLsbD_toWord, show ¬ i < 7 by omega, show ¬ i < 12 by omega, if_false]

/-- A slice reads no bit below its first. -/
theorem AgreeFrom.slice_eq {n : Nat} {w w' : Word} (h : AgreeFrom n w w') {lo : Nat} (hlo : n ≤ lo) (len : Nat) :
    w.extractLsb' lo len = w'.extractLsb' lo len := by
  refine BitVec.eq_of_getLsbD_eq fun i _ => ?_
  rw [BitVec.getLsbD_extractLsb', BitVec.getLsbD_extractLsb', h (lo + i) (by omega)]

/-- The five fields stand above the opcode field (30_encoding.md R37). -/
theorem AgreeFrom.ofWord_eq {w w' : Word} (h : AgreeFrom 7 w w') : Fields.ofWord w = Fields.ofWord w' := by
  simp (disch := decide) only [Fields.ofWord, rdOf, funct3Of, rs1Of, rs2Of, funct7Of, h.slice_eq]

/-- No immediate reads the opcode field, and only those of BRANCH and STORE read the bits of `rd` (30_encoding.md
R43-R47). -/
theorem AgreeFrom.immOf_eq {n : Nat} {w w' : Word} (h : AgreeFrom n w w') {c : OpcodeClass} (hn : n ≤ 12)
    (hrd : c = .BRANCH ∨ c = .STORE → n ≤ 7) : immOf c w = immOf c w' := by
  cases c with
  | LUI | AUIPC => simp (disch := omega) only [immOf, immU, h.slice_eq]
  | JAL => simp (disch := omega) only [immOf, immJ, h.slice_eq]
  | BRANCH =>
    have := hrd (.inl rfl)
    simp (disch := omega) only [immOf, immB, h.slice_eq]
  | STORE =>
    have := hrd (.inr rfl)
    simp (disch := omega) only [immOf, immS, h.slice_eq]
  | LOAD | JALR | OP_IMM | SYSTEM => simp (disch := omega) only [immOf, immI, h.slice_eq]
  | OP | INVALID => rfl

/-! ### The immediate as a function of the format -/

/-- The immediate of a format (30_encoding.md R43-R47), zero for R and where there is none. -/
def immOfFormat : Option Format → Word → Word
  | some .U => immU
  | some .J => immJ
  | some .B => immB
  | some .S => immS
  | some .I => immI
  | some .R | none => immNone

/-- The immediate dispatch reads no more of the class than its format (40_decode.md R54, R56). -/
theorem immOf_eq_immOfFormat (c : OpcodeClass) (w : Word) : immOf c w = immOfFormat (formatOf c) w := by
  cases c <;> rfl

end Sys2Proof
end

section
/-! The statements of 10_state.md. -/

namespace Sys2Proof

open Sys2Proof.Machine

/-- Settles O21: whatever the state, an instruction delivers the record of its own word, and delivering a record leaves
both ports alone. -/
theorem instructionFrame : Obligations.InstructionFrame := by
  intro i s s' t t' ht ht'
  rw [exec_eq_next ht, exec_eq_next ht']
  exact ⟨deliver_raw s _, deliver_out s _, deliver_raw s' _, deliver_out s' _, rfl⟩

/-- Settles O35: the fields and the immediate of a format are slices that begin at bit 7 or above. -/
theorem fieldsIndependentOfOpcode : Obligations.FieldsIndependentOfOpcode := by
  intro s s' d d' hbits hd hd'
  obtain rfl := returns_iff_eq_out.mp hd
  obtain rfl := returns_iff_eq_out.mp hd'
  have hagree : AgreeFrom 7 s.raw s'.raw := agreeFrom_of_extractLsb_eq hbits
  refine ⟨sameFields_decodedRecord_iff.mpr hagree.ofWord_eq, fun hformat => ?_⟩
  calc s.out.immediate = immOf s.out.opcode s'.raw := hagree.immOf_eq (by decide) fun _ => Nat.le_refl 7
    _ = immOfFormat (formatOf s'.out.opcode) s'.raw := by rw [immOf_eq_immOfFormat, hformat]
    _ = s'.out.immediate := (immOf_eq_immOfFormat _ _).symm

/-- Settles O37: the two words differ below bit 12 only, where no immediate but those of BRANCH and STORE is read. -/
theorem destinationIndexNotSpecial : Obligations.DestinationIndexNotSpecial := by
  intro i i' r s hclass hbranch hstore hfields
  have hagree : AgreeFrom 12 (encode i') (encode i) := by
    obtain ⟨op, hword⟩ := exists_encode_eq_toWord i
    obtain ⟨op', hword'⟩ := exists_encode_eq_toWord i'
    rw [hword, hword', hfields]
    exact agreeFrom_toWord_setRd i.fields r op op'
  have himm : immOf i.opcodeClass (encode i') = immOf i.opcodeClass (encode i) :=
    hagree.immOf_eq (Nat.le_refl 12) fun h => (h.elim hbranch hstore).elim
  refine ⟨_, _, exec_eq i s, exec_eq i' s, ?_⟩
  simp only [recordOf_encode, hclass, himm, hfields]

/-- Settles O56: the outputs are a function of the input port, and a step returns them. -/
theorem outputsFollowTheInput : Obligations.OutputsFollowTheInput := by
  intro s w
  have hstep : step (s.present w) = .next ((s.present w).deliver (decodedRecord w)) := step_eq (s.present w)
  exact ⟨present_out s w, _, hstep, deliver_record _ _, deliver_out _ _⟩

/-- Settles O33: the record a step returns is the one on the output ports, whose `raw` is the input port. -/
theorem rawPassesThrough : Obligations.RawPassesThrough := by
  intro s d hd
  obtain rfl := returns_iff_eq_out.mp hd
  have hraw : s.out.raw = s.raw := recordOf_raw _ _ _
  exact ⟨hraw, hraw⟩

end Sys2Proof
end

section
/-! What a list of calls and one call on a word of a given class return, as functions of the words. -/

namespace Sys2Proof

open Sys2Proof.Machine

/-- The records a caller reads for a list of words are the words' own records, whatever the state (70_reset_and_hazards.md
R87): each call's record is a function of the word presented for it. -/
theorem recordsOf_eq_map (ws : List Word) (s : State) : recordsOf ws s = some (ws.map decodedRecord) := by
  induction ws generalizing s with
  | nil => rfl
  | cons w ws ih =>
    simp only [recordsOf, step_eq, deliver_record, present_out, Option.bind_some, ih, Option.map_some, List.map_cons]

/-- The slices of 30_encoding.md R37 are the field outputs of every record. -/
theorem fieldsFrom_decodedRecord (w : Word) : FieldsFrom w (decodedRecord w) :=
  ⟨rfl, rfl, rfl, rfl, rfl⟩

/-- All that a class rule leaves to show of a word: its class, and what the rule says of the record. -/
theorem decodesAs_iff {s : State} {c : OpcodeClass} {P : DecodedInstruction → Prop} :
    DecodesAs s c P ↔ classify (opfieldOf s.raw) = c ∧ P s.out := by
  constructor
  · rintro ⟨-, -, -, hclass, hrecord⟩
    exact ⟨hclass, hrecord⟩
  · rintro ⟨hclass, hrecord⟩
    exact ⟨returns_iff_eq_out.mpr rfl, recordOf_raw _ _ _, fieldsFrom_decodedRecord s.raw, hclass, hrecord⟩

/-- The record of a word of class INVALID has immediate 0 (46_r_type_and_invalid.md R71). -/
theorem immediate_out_of_invalid {s : State} (h : classify (opfieldOf s.raw) = .INVALID) : s.out.immediate = 0#32 := by
  rw [State.out, decodedRecord, recordOf_immediate, h]
  rfl

/-- A word whose opcode field is outside the table is INVALID with immediate 0 (30_encoding.md R42,
46_r_type_and_invalid.md R71). -/
theorem decodesAs_invalid_of_not_mem {s : State} (h : opfieldOf s.raw ∉ knownOpcodes) :
    DecodesAs s .INVALID fun d => d.immediate = 0#32 := by
  have hclass : classify (opfieldOf s.raw) = .INVALID := (classify_eq_invalid_iff _).mpr h
  exact decodesAs_iff.mpr ⟨hclass, immediate_out_of_invalid hclass⟩

end Sys2Proof
end

section
/-! The statements of 20_memory.md. -/

namespace Sys2Proof

open Sys2Proof.Machine

/-- Settles O22: a step leaves the outputs alone, so a second one returns the record the caller already holds. -/
theorem stepIdempotent : Obligations.StepIdempotent := by
  intro s t hst
  rw [step_eq, Host.Outcome.next.injEq] at hst
  rw [← hst, step_eq, deliver_out, deliver_deliver]

/-- Settles O24: from any state the records are those of the words, one by one, so they are permuted as the words are. -/
theorem presentingOrderImmaterial : Obligations.PresentingOrderImmaterial :=
  fun ws ws' s s' hperm => ⟨_, _, recordsOf_eq_map ws s, recordsOf_eq_map ws' s', hperm.map decodedRecord⟩

/-- None of the opcodes 20_memory.md R35 and 30_encoding.md R50 name is in the classification table. -/
theorem namedOpcodes_not_mem_knownOpcodes : ∀ op ∈ [0x0F#7, 0x0B#7, 0x2B#7, 0x5B#7, 0x7B#7, 0x2F#7, 0x07#7, 0x27#7,
    0x43#7, 0x47#7, 0x4B#7, 0x4F#7, 0x53#7, 0x57#7, 0x1B#7, 0x3B#7], op ∉ knownOpcodes := by
  decide

/-- Settles O29: the opcodes named are outside the table, and every word with such an opcode is INVALID. -/
theorem fencesAndUnlistedOpcodesAreInvalid : Obligations.FencesAndUnlistedOpcodesAreInvalid :=
  fun _ hop => decodesAs_invalid_of_not_mem (namedOpcodes_not_mem_knownOpcodes _ hop)

end Sys2Proof
end

section
/-! What a word's opcode field and its length marks say of its class, and the instruction a word is. -/

namespace Sys2Proof

open Sys2Proof.Machine

/-! ### Decoding an assembled word -/

/-- Every word decodes to a well-formed instruction: an `invalid` comes of an opcode field outside the table only. -/
theorem wf_decode (w : Word) : (decode w).wf = true := by
  unfold decode
  split
  case h_11 hclass =>
    have hunknown : opfieldOf w ∉ knownOpcodes := (classify_eq_invalid_iff _).mp hclass
    simpa [Instr.wf] using hunknown
  all_goals rfl

/-- The decoder reads a well-formed instruction back from its word: the six fields of an assembled word are the ones it
was made of, and the opcode field's class is the instruction's. -/
theorem decode_encode {i : Instr} (h : i.wf = true) : decode (encode i) = i := by
  cases i with
  | invalid opfield f =>
    have hclass : classify opfield = .INVALID := by
      simpa [encode, Instr.opcodeClass] using (Laws.EncodePlaces.invalid opfield f h).2
    simp only [decode, encode, opfieldOf_toWord, hclass, ofWord_toWord]
  | _ f =>
    simp only [decode, encode, opfieldOf_toWord, ofWord_toWord]
    rfl

/-- All 32 bits of a word presented as a table row are the word. -/
@[simp] theorem tableWord_toNat (w : Word) : tableWord 32 w.toNat = w := by
  rw [tableWord, Nat.mod_eq_of_lt w.isLt, BitVec.ofNat_toNat, BitVec.setWidth_eq]

/-! ### The class of an opcode field -/

/-- The classification table of 30_encoding.md R40, read from top to bottom. -/
theorem classify_eq_table (op : OpField) : classify op =
    if op = 0x37#7 then .LUI
    else if op = 0x17#7 then .AUIPC
    else if op = 0x6F#7 then .JAL
    else if op = 0x67#7 then .JALR
    else if op = 0x63#7 then .BRANCH
    else if op = 0x03#7 then .LOAD
    else if op = 0x23#7 then .STORE
    else if op = 0x13#7 then .OP_IMM
    else if op = 0x33#7 then .OP
    else if op = 0x73#7 then .SYSTEM
    else .INVALID := by
  revert op; decide

/-- Each known class has exactly one opcode (30_encoding.md R42). -/
theorem exists_unique_opcode {c : OpcodeClass} (hc : c ≠ .INVALID) :
    ∃ op : OpField, classify op = c ∧ ∀ op' : OpField, classify op' = c → op' = op := by
  cases c with
  | INVALID => exact absurd rfl hc
  | _ =>
    simp only [classify_eq_known_iff]
    exact ⟨_, rfl, fun _ h => h⟩

/-- A known class and the five fields are all there is to a word. -/
theorem eq_of_classify_eq_of_ofWord_eq {w w' : Word} (hknown : classify (opfieldOf w) ≠ .INVALID)
    (hclass : classify (opfieldOf w) = classify (opfieldOf w')) (hfields : Fields.ofWord w = Fields.ofWord w') :
    w = w' := by
  obtain ⟨op, -, honly⟩ := exists_unique_opcode hknown
  have hop : opfieldOf w = opfieldOf w' := (honly _ rfl).trans (honly _ hclass.symm).symm
  rw [← toWord_ofWord w, ← toWord_ofWord w', hfields, hop]

/-- No known opcode carries another instruction length's mark (30_encoding.md R51). -/
theorem knownOpcodes_length_marks : ∀ op ∈ knownOpcodes,
    op.extractLsb 1 0 = 0b11#2 ∧ op.extractLsb 5 0 ≠ 0b011111#6 ∧ op ≠ 0b0111111#7 := by
  decide

/-- The low bits of a word are those of its opcode field. -/
theorem extractLsb_opfieldOf (w : Word) {hi : Nat} (h : hi < 7) :
    (opfieldOf w).extractLsb hi 0 = w.extractLsb hi 0 :=
  BitVec.extractLsb'_extractLsb'_of_le (by omega)

/-! ### The fields in shift-and-mask form -/

/-- A slice is a right shift and a mask of the slice's length. -/
theorem setWidth_slice (w : Word) (lo n : Nat) :
    (w.extractLsb' lo n).setWidth 32 = (w >>> lo) &&& BitVec.ofNat 32 (2 ^ n - 1) := by
  refine BitVec.eq_of_getLsbD_eq fun i hi => ?_
  simp only [BitVec.getLsbD_setWidth, BitVec.getLsbD_extractLsb', BitVec.getLsbD_and, BitVec.getLsbD_ushiftRight,
    BitVec.getLsbD_ofNat, Nat.testBit_two_pow_sub_one, hi, decide_true, Bool.true_and, Bool.and_comm]

end Sys2Proof
end

section
/-! The statements of 30_encoding.md on decoding, encoding and classification. -/

namespace Sys2Proof

open Sys2Proof.Machine

/-- Settles O48: an assembled word has the fields and the opcode it was made of. -/
theorem decodeOfEncode : Obligations.DecodeOfEncode :=
  fun _ hwf => decode_encode hwf

/-- Settles O49: the six fields tile the word, and a known class has one opcode. -/
theorem encodeOfDecode : Obligations.EncodeOfDecode :=
  encode_decode

/-- Settles O47: the one check is on the opcode field of an `invalid`. -/
theorem decodedInstructionsWellFormed : Obligations.DecodedInstructionsWellFormed :=
  wf_decode

/-- Settles O50: a 32-bit row is the word itself, from which the decoder reads the instruction back. -/
theorem presentedInstructionRuns : Obligations.PresentedInstructionRuns := by
  intro i s hwf
  constructor
  · rw [decodeTableWord, if_pos (Nat.le_refl 32), tableWord_toNat, decode_encode hwf]
  · rw [State.withFetchWord, tableWord_toNat, step, present_raw, decode_encode hwf]

/-- Settles O25: the class a step returns is `classify` of the opcode field. -/
theorem classFollowsTheTable : Obligations.ClassFollowsTheTable := by
  intro s d hd
  obtain rfl := returns_iff_eq_out.mp hd
  exact classify_eq_table (opfieldOf s.raw)

/-- Settles O26: the ten known classes have one opcode each, and the 128 values are counted. -/
theorem classesPartitionOpcodes : Obligations.ClassesPartitionOpcodes :=
  ⟨fun _ hc => exists_unique_opcode hc, rfl⟩

/-- Settles O27: the class reads the opcode field only, which the assembled word keeps. -/
theorem noKnownEncodingRejected : Obligations.NoKnownEncodingRejected := by
  intro s f hknown
  have hclass : classify (opfieldOf (f.toWord (opfieldOf s.raw))) = classify (opfieldOf s.raw) := by
    rw [opfieldOf_toWord]
  have hvalid : classify (opfieldOf s.raw) ≠ .INVALID := fun h => (classify_eq_invalid_iff _).mp h hknown
  exact ⟨s.out, (s.present _).out, returns_iff_eq_out.mpr rfl, returns_iff_eq_out.mpr rfl, hclass, hvalid,
    fieldsFrom_decodedRecord _, congrArg (immOf · _) hclass⟩

/-- Settles O28: a word with another length's mark has an opcode field outside the table. -/
theorem otherLengthsAreInvalid : Obligations.OtherLengthsAreInvalid := by
  refine ⟨fun op hop => (knownOpcodes_length_marks op hop).1, fun s hmark => ?_⟩
  refine decodesAs_invalid_of_not_mem fun hknown => ?_
  obtain ⟨hlow, h48, h64⟩ := knownOpcodes_length_marks _ hknown
  rw [extractLsb_opfieldOf _ (by decide)] at hlow h48
  obtain hnot | heq | heq := hmark
  · exact hnot hlow
  · exact h48 heq
  · exact h64 heq

/-- Settles O31: the code is a numbering of the classes, inverted by `ofBusCode`. -/
theorem busCodesNameClasses : Obligations.BusCodesNameClasses := by
  refine ⟨rfl, fun c => ?_, by decide⟩
  cases c <;> exact ⟨rfl, by decide⟩

/-- Settles O34: the fields are slices, a slice is a shift and a mask, and the slices tile the word. -/
theorem fieldsAtFixedPositions : Obligations.FieldsAtFixedPositions := by
  intro s d hd
  obtain rfl := returns_iff_eq_out.mp hd
  exact ⟨fieldsFrom_decodedRecord s.raw, setWidth_slice s.raw 7 5, setWidth_slice s.raw 12 3,
    setWidth_slice s.raw 15 5, setWidth_slice s.raw 20 5, setWidth_slice s.raw 25 7,
    (toWord_ofWord s.raw).symm⟩

/-- Settles O36: the class fixes the opcode field, which with the five fields is the word. -/
theorem knownRecordDeterminesWord : Obligations.KnownRecordDeterminesWord := by
  intro s s' d d' hd hd' hknown hclass hfields
  obtain rfl := returns_iff_eq_out.mp hd
  obtain rfl := returns_iff_eq_out.mp hd'
  have hraw : s.raw = s'.raw :=
    eq_of_classify_eq_of_ofWord_eq hknown hclass (sameFields_decodedRecord_iff.mp hfields)
  exact ⟨hraw, out_eq_of_raw_eq hraw⟩

end Sys2Proof
end

section
/-! The immediate of a format as the spec's other forms of it (30_encoding.md R43-R48): masks and shifts of the word,
and the range of the number it is read as. -/

namespace Sys2Proof

open Sys2Proof.Machine

/-- The record a step returns for a class that has a format, its immediate written as the format's. -/
theorem eq_recordOf_of_format {s : State} {d : DecodedInstruction} {fmt : Format} (hd : Returns s d)
    (hfmt : formatOf d.opcode = some fmt) : d = recordOf d.opcode (immOfFormat (some fmt) s.raw) s.raw := by
  obtain rfl := returns_iff_eq_out.mp hd
  rw [← hfmt, ← immOf_eq_immOfFormat]
  rfl

theorem immediate_of_format {s : State} {d : DecodedInstruction} {fmt : Format} (hd : Returns s d)
    (hfmt : formatOf d.opcode = some fmt) : d.immediate = immOfFormat (some fmt) s.raw :=
  congrArg DecodedInstruction.immediate (eq_recordOf_of_format hd hfmt)

/-! ### Masks -/

/-- The mask of the bits [hi:lo]. -/
def bitsMask (hi lo : Nat) : Word := BitVec.ofNat 32 (2 ^ (hi + 1 - lo) - 1) <<< lo

theorem getLsbD_bitsMask (hi lo : Nat) {i : Nat} (h : i < 32) :
    (bitsMask hi lo).getLsbD i = decide (lo ≤ i ∧ i ≤ hi) := by
  have : i - lo < hi + 1 - lo ∧ ¬ i < lo ↔ lo ≤ i ∧ i ≤ hi := by omega
  simp only [bitsMask, BitVec.getLsbD_shiftLeft, BitVec.getLsbD_ofNat, Nat.testBit_two_pow_sub_one, h,
    show i - lo < 32 by omega, ← this]
  simp only [decide_true, Bool.true_and, Bool.decide_and, decide_not, Bool.and_comm]

/-- The bits of the mask `m` are forced to 1 where the sign bit `b` is set. -/
def forceBits (b : Bool) (m u : Word) : Word := if b then u ||| m else u

theorem getLsbD_forceBits (b : Bool) (m u : Word) (i : Nat) :
    (forceBits b m u).getLsbD i = (u.getLsbD i || b && m.getLsbD i) := by
  cases b <;> simp [forceBits]

/-- The mask form of each format's immediate: its pieces shifted into place, and the bits above the natural width
forced to the sign (30_encoding.md R43-R47). -/
def maskForm (fmt : Format) (w : Word) : Word :=
  match fmt with
  | .U => w &&& bitsMask 31 12
  | .J => forceBits (w.getLsbD 31) (bitsMask 31 21)
      (((w >>> 11) &&& bitsMask 20 20) ||| (w &&& bitsMask 19 12) ||| ((w >>> 9) &&& bitsMask 11 11) |||
        ((w >>> 20) &&& bitsMask 10 1))
  | .B => forceBits (w.getLsbD 31) (bitsMask 31 13)
      (((w >>> 19) &&& bitsMask 12 12) ||| ((w <<< 4) &&& bitsMask 11 11) ||| ((w >>> 20) &&& bitsMask 10 5) |||
        ((w >>> 7) &&& bitsMask 4 1))
  | .S => forceBits (w.getLsbD 31) (bitsMask 31 12) (((w >>> 20) &&& bitsMask 11 5) ||| ((w >>> 7) &&& bitsMask 4 0))
  | .I => forceBits (w.getLsbD 31) (bitsMask 31 12) ((w >>> 20) &&& bitsMask 11 0)
  | .R => 0#32

/-- Assembling the slices and masking the word give the same immediate: each bit of the result comes from the one piece
whose range it is in, or from the sign. -/
theorem immOfFormat_eq_maskForm (fmt : Format) (w : Word) : immOfFormat (some fmt) w = maskForm fmt w := by
  refine BitVec.eq_of_getLsbD_eq fun i hi => ?_
  cases fmt with
  | R => rfl
  | _ =>
    simp only [immOfFormat, getLsbD_immU w hi, getLsbD_immJ w hi, getLsbD_immB w hi, getLsbD_immS w hi,
      getLsbD_immI w hi, maskForm, getLsbD_forceBits, BitVec.getLsbD_or, BitVec.getLsbD_and,
      BitVec.getLsbD_ushiftRight, BitVec.getLsbD_shiftLeft, getLsbD_bitsMask _ _ hi]
    grind

/-- The I-type immediate stands at the top of the word, so a sign-filling shift brings it down. -/
theorem immI_eq_sshiftRight (w : Word) : immI w = w.sshiftRight 20 := by
  refine BitVec.eq_of_getLsbD_eq fun i hi => ?_
  rw [getLsbD_immI w hi, BitVec.getLsbD_sshiftRight, BitVec.msb_eq_getLsbD_last]
  grind

/-! ### The number an immediate is read as -/

/-- Sign extension keeps the range of the narrow value. -/
theorem signedReading_signExtend_range {n : Nat} (x : BitVec n) (hn : n ≤ 32) :
    -2 ^ (n - 1) ≤ signedReading (x.signExtend 32) ∧ signedReading (x.signExtend 32) < 2 ^ (n - 1) := by
  rw [signedReading_eq_toInt, BitVec.toInt_signExtend_of_le hn]
  exact ⟨BitVec.le_toInt x, BitVec.toInt_lt⟩

/-- A word with bit 0 clear is read as an even number. -/
theorem signedReading_even {v : Word} (h : v.getLsbD 0 = false) : signedReading v % 2 = 0 := by
  have heven : v.toNat % 2 = 0 := by simpa [BitVec.getLsbD] using h
  unfold signedReading
  omega

/-! ### The format table -/

/-- Every bit of a word stands in the record of its format where the format's cell says (30_encoding.md R39). The parts
of the word are those of the table; bits 7, 20 and 31 have cells of their own in some formats. -/
theorem cellValue_cellOf (c : OpcodeClass) (fmt : Format) (w : Word) {p : Nat} (hp : p < 32) :
    cellValue (recordOf c (immOfFormat (some fmt) w) w) (cellOf fmt p) = w.getLsbD p := by
  obtain hopcode | rfl | hrd | hfunct3 | hrs1 | rfl | hrs2 | hfunct7 | rfl : p ≤ 6 ∨ p = 7 ∨ (8 ≤ p ∧ p ≤ 11) ∨
      (12 ≤ p ∧ p ≤ 14) ∨ (15 ≤ p ∧ p ≤ 19) ∨ p = 20 ∨ (21 ≤ p ∧ p ≤ 24) ∨ (25 ≤ p ∧ p ≤ 30) ∨ p = 31 := by omega
  · simp only [cellOf, if_pos hopcode]
    exact getLsbD_slice w (Nat.zero_le p) (by omega)
  all_goals
    cases fmt <;>
    simp (disch := omega) only [cellOf, if_pos, if_neg, if_true, cellValue, recordOf_rd, recordOf_rs1, recordOf_rs2,
      recordOf_funct3, recordOf_funct7, recordOf_immediate, rdOf, funct3Of, rs1Of, rs2Of, funct7Of, getLsbD_slice,
      immOfFormat, getLsbD_immU, getLsbD_immJ, getLsbD_immB, getLsbD_immS, getLsbD_immI, Nat.sub_add_cancel]
  · exact getLsbD_slice w (lo := 25) (i := 31) (by decide) (by decide)
/-- No natural width exceeds the word's. -/
theorem naturalWidth_le {fmt : Format} {n : Nat} (h : naturalWidth fmt = some n) : n ≤ 32 := by
  cases fmt <;> cases h <;> decide

end Sys2Proof
end

section
/-! The statements of 30_encoding.md on the immediates and the format table. -/

namespace Sys2Proof

open Sys2Proof.Machine

/-- Settles O39: the low 12 bits are zero and the others are in place. -/
theorem uImmediateBits : Obligations.UImmediateBits := by
  intro s d hd hfmt
  have himm : d.immediate = immU s.raw := immediate_of_format hd hfmt
  rw [himm]
  exact ⟨fun i hi => getLsbD_immU s.raw hi, immOfFormat_eq_maskForm .U s.raw⟩

/-- Settles O40: the immediate is a 21-bit number, sign-extended, with bit 0 clear. -/
theorem jImmediateBits : Obligations.JImmediateBits := by
  intro s d hd hfmt
  have himm : d.immediate = immJ s.raw := immediate_of_format hd hfmt
  have heven : signedReading (immJ s.raw) % 2 = 0 := signedReading_even (getLsbD_immJ s.raw (by decide))
  obtain ⟨hlow, hhigh⟩ : -1048576 ≤ signedReading (immJ s.raw) ∧ signedReading (immJ s.raw) < 1048576 :=
    signedReading_signExtend_range _ (by decide)
  rw [himm]
  refine ⟨fun i hi => ?_, immOfFormat_eq_maskForm .J s.raw, heven, hlow, by omega⟩
  rw [getLsbD_immJ s.raw hi]
  grind

/-- Settles O41: the immediate is a 13-bit number, sign-extended, with bit 0 clear. -/
theorem bImmediateBits : Obligations.BImmediateBits := by
  intro s d hd hfmt
  have himm : d.immediate = immB s.raw := immediate_of_format hd hfmt
  have heven : signedReading (immB s.raw) % 2 = 0 := signedReading_even (getLsbD_immB s.raw (by decide))
  obtain ⟨hlow, hhigh⟩ : -4096 ≤ signedReading (immB s.raw) ∧ signedReading (immB s.raw) < 4096 :=
    signedReading_signExtend_range _ (by decide)
  rw [himm]
  refine ⟨fun i hi => ?_, immOfFormat_eq_maskForm .B s.raw, heven, hlow, by omega⟩
  rw [getLsbD_immB s.raw hi]
  grind

/-- Settles O42: the immediate is a 12-bit number, sign-extended. -/
theorem sImmediateBits : Obligations.SImmediateBits := by
  intro s d hd hfmt
  have himm : d.immediate = immS s.raw := immediate_of_format hd hfmt
  obtain ⟨hlow, hhigh⟩ : -2048 ≤ signedReading (immS s.raw) ∧ signedReading (immS s.raw) < 2048 :=
    signedReading_signExtend_range _ (by decide)
  rw [himm]
  refine ⟨fun i hi => ?_, immOfFormat_eq_maskForm .S s.raw, hlow, by omega⟩
  rw [getLsbD_immS s.raw hi]
  grind

/-- Settles O43: the immediate is a 12-bit number, sign-extended, which is the top of the word shifted down. -/
theorem iImmediateBits : Obligations.IImmediateBits := by
  intro s d hd hfmt
  have himm : d.immediate = immI s.raw := immediate_of_format hd hfmt
  obtain ⟨hlow, hhigh⟩ : -2048 ≤ signedReading (immI s.raw) ∧ signedReading (immI s.raw) < 2048 :=
    signedReading_signExtend_range _ (by decide)
  rw [himm]
  refine ⟨fun i hi => ?_, immOfFormat_eq_maskForm .I s.raw, immI_eq_sshiftRight s.raw, hlow, by omega⟩
  rw [getLsbD_immI s.raw hi]
  grind

/-- Settles O44: the forced bits begin at the natural width's own top bit, so bit 31 is one of them. -/
theorem signBitLaw : Obligations.SignBitLaw := by
  intro s d fmt n hd hfmt hwidth
  obtain rfl := returns_iff_eq_out.mp hd
  have hn : n ≤ 32 := naturalWidth_le hwidth
  exact ⟨immOf_forced _ _ hfmt hwidth hn (by decide),
    fun i hi hlt => immOf_forced _ _ hfmt hwidth (by omega) hlt⟩

/-- Settles O45: the record is the one of the word with the format's own immediate. -/
theorem formatTableHolds : Obligations.FormatTableHolds := by
  intro s d fmt p hd hfmt hp
  rw [eq_recordOf_of_format hd hfmt]
  exact cellValue_cellOf d.opcode fmt s.raw hp

end Sys2Proof
end

section
/-! The statements of 40_decode.md: the whole operation, its totality, and the two dispatches of the immediate. -/

namespace Sys2Proof

open Sys2Proof.Machine

/-- Settles O18: the output ports hold R53's record by definition, its slices being R37's; that a step returns just that
record is the content, as a step goes through the decoded instruction and its word. -/
theorem stepIsDecode : Obligations.StepIsDecode :=
  fun s => ⟨rfl, rfl, step_eq s⟩

/-- The immediate dispatch of 40_decode.md R54, made on the opcode field instead of the class: a known class has one
opcode, and the fields of no known class take the same zero as OP's. -/
theorem immOf_classify_eq_bitsDispatch (op : OpField) (w : Word) : immOf (classify op) w =
    if op = 0x37#7 ∨ op = 0x17#7 then immU w
    else if op = 0x6F#7 then immJ w
    else if op = 0x63#7 then immB w
    else if op = 0x23#7 then immS w
    else if op ∈ [0x03#7, 0x67#7, 0x13#7, 0x73#7] then immI w
    else 0#32 := by
  cases hclass : classify op with
  | INVALID =>
    have hunknown : op ∉ knownOpcodes := (classify_eq_invalid_iff op).mp hclass
    simp only [knownOpcodes, List.mem_cons, not_or] at hunknown
    simp [hunknown, immOf, immNone]
  | _ =>
    simp only [classify_eq_known_iff] at hclass
    subst hclass
    rfl

/-- Settles O38: the record's class is that of the opcode field, so its immediate is dispatched on either. -/
theorem classAndBitsDispatchAgree : Obligations.ClassAndBitsDispatchAgree := by
  intro s d hd
  obtain rfl := returns_iff_eq_out.mp hd
  exact ⟨rfl, immOf_classify_eq_bitsDispatch (opfieldOf s.raw) s.raw⟩

/-- Settles O19: a step delivers the outputs, and an instruction the record of its own word. -/
theorem decodeIsTotal : Obligations.DecodeIsTotal :=
  ⟨fun s => ⟨s.out, step_eq s⟩, fun i s _ => ⟨_, exec_eq i s⟩⟩

/-- Settles O32: the format of each class, read off `formatOf`. -/
theorem formatOfEachClass : Obligations.FormatOfEachClass :=
  rfl

/-- Settles O46: a step is `exec` of the decoded instruction by definition. -/
theorem stepRunsDecodedInstruction : Obligations.StepRunsDecodedInstruction := by
  intro s i hdecode _
  rw [step, hdecode]

end Sys2Proof
end

section
/-! What an instruction answers in terms of its own fields, and what a word of one class answers; the U-type immediate. -/

namespace Sys2Proof

open Sys2Proof.Machine

/-- Every instruction completes in every state: the record holds its word, its class and its fields. -/
theorem exec_eq_record (i : Instr) (s : State) :
    exec i s = .next { s with record := some (
      { raw := encode i, opcode := i.opcodeClass, rd := i.fields.rd, rs1 := i.fields.rs1, rs2 := i.fields.rs2,
        funct3 := i.fields.funct3, funct7 := i.fields.funct7, immediate := immOf i.opcodeClass (encode i) }) } := by
  rw [exec_eq, recordOf_encode]
  rfl

/-- A word whose opcode field is of class `c` decodes as `c`; what remains of the class's rule is what it says of the
record with the immediate of `c`. -/
theorem decodesAs_of_opcode {s : State} {op : OpField} {c : OpcodeClass} {P : DecodedInstruction → Prop}
    (hop : s.raw.extractLsb 6 0 = op) (hclass : classify op = c) (hrecord : P (recordOf c (immOf c s.raw) s.raw)) :
    DecodesAs s c P := by
  have hword : classify (opfieldOf s.raw) = c := (congrArg classify hop).trans hclass
  refine decodesAs_iff.mpr ⟨hword, ?_⟩
  rw [State.out, decodedRecord, hword]
  exact hrecord

/-- A word is read as a negative number exactly when its top bit is set (00_scope.md R9). -/
theorem signedReading_neg_iff (v : Word) : signedReading v < 0 ↔ v.getLsbD 31 = true := by
  have hmsb : v.getLsbD 31 = v.msb := (BitVec.msb_eq_getLsbD_last v).symm
  rw [signedReading_eq_toInt, hmsb, BitVec.msb_eq_toInt, decide_eq_true_iff]

/-! ### The U-type immediate (30_encoding.md R43) -/

/-- Bits [31:12] of an assembled word are the fields above `rd`. -/
theorem immU_toWord (f : Fields) (op : OpField) :
    immU (f.toWord op) = f.funct7 ++ f.rs2 ++ f.rs1 ++ f.funct3 ++ 0#12 := by
  have hhigh : (f.toWord op).extractLsb' 12 20 = f.funct7 ++ f.rs2 ++ f.rs1 ++ f.funct3 :=
    calc (f.toWord op).extractLsb' 12 20
        = (f.funct7 ++ f.rs2 ++ f.rs1 ++ f.funct3 ++ f.rd).extractLsb' 5 20 :=
          BitVec.extractLsb'_append_eq_of_le (by decide)
      _ = f.funct7 ++ f.rs2 ++ f.rs1 ++ f.funct3 := BitVec.extractLsb'_append_eq_left
  rw [immU, hhigh]

/-- The low 12 bits are zero. -/
theorem immU_low (w : Word) : (immU w).extractLsb 11 0 = 0#12 :=
  BitVec.extractLsb'_append_eq_right

/-- Bit 31 stays in place, so it is the sign with no extension step. -/
theorem signedReading_immU_neg_iff (w : Word) : signedReading (immU w) < 0 ↔ w.getLsbD 31 = true := by
  rw [signedReading_neg_iff, getLsbD_immU w (by decide), if_neg (by decide)]

end Sys2Proof
end

section
/-! The statements of 41_u_type.md. -/

namespace Sys2Proof

open Sys2Proof.Machine

/-- Settles O1: the record is the one of the instruction's own word, whose bits [31:12] are the fields above `rd`. -/
theorem uTypeCompletes : Obligations.UTypeCompletes := by
  intro f s
  constructor
  · rw [← immU_toWord f 0x37#7]
    exact exec_eq_record (.lui f) s
  · rw [← immU_toWord f 0x17#7]
    exact exec_eq_record (.auipc f) s

/-- Settles O7: the class of opcode 0x37 is LUI, whose immediate keeps raw[31:12], the sign bit with them, in place. -/
theorem luiWordRecord : Obligations.LuiWordRecord :=
  fun s hop => decodesAs_of_opcode hop rfl ⟨rfl, immU_low s.raw, (signedReading_immU_neg_iff s.raw).mpr⟩

/-- Settles O8: the class of opcode 0x17 is AUIPC, with the same immediate as LUI. -/
theorem auipcWordRecord : Obligations.AuipcWordRecord :=
  fun s hop => decodesAs_of_opcode hop rfl ⟨rfl, immU_low s.raw⟩

end Sys2Proof
end

section
/-! The J-type immediate in terms of the fields of its word. -/

namespace Sys2Proof

open Sys2Proof.Machine

/-- A slice of a slice is a slice of the word. -/
theorem extractLsb'_slice (w : Word) {lo n lo' n' : Nat} (h : lo' + n' ≤ n) :
    (w.extractLsb' lo n).extractLsb' lo' n' = w.extractLsb' (lo + lo') n' := by
  refine BitVec.eq_of_getLsbD_eq fun i hi => ?_
  have hinner : lo' + i < n := by omega
  simp only [BitVec.getLsbD_extractLsb', hi, hinner, decide_true, Bool.true_and, Nat.add_assoc]

/-! ### The J-type immediate (30_encoding.md R44) -/

/-- The four pieces of the J-type immediate, read in the fields: rs1 and funct3 meet in raw[19:12], and funct7 and rs2 in
raw[30:21]. -/
theorem immJ_eq_fields (w : Word) : immJ w =
    ((funct7Of w).extractLsb 6 6 ++ rs1Of w ++ funct3Of w ++ (rs2Of w).extractLsb 0 0 ++ (funct7Of w).extractLsb 5 0 ++
      (rs2Of w).extractLsb 4 1 ++ 0#1).signExtend 32 := by
  have hsign : (funct7Of w).extractLsb 6 6 = w.extractLsb' 31 1 := extractLsb'_slice w (by decide)
  have hbit11 : (rs2Of w).extractLsb 0 0 = w.extractLsb' 20 1 := extractLsb'_slice w (by decide)
  have hfunct7 : (funct7Of w).extractLsb 5 0 = w.extractLsb' 25 6 := extractLsb'_slice w (by decide)
  have hrs2 : (rs2Of w).extractLsb 4 1 = w.extractLsb' 21 4 := extractLsb'_slice w (by decide)
  have hmid : rs1Of w ++ funct3Of w = w.extractLsb' 12 8 := BitVec.extractLsb'_append_extractLsb'_eq_extractLsb' rfl
  have hlow : w.extractLsb' 25 6 ++ w.extractLsb' 21 4 = w.extractLsb' 21 10 :=
    BitVec.extractLsb'_append_extractLsb'_eq_extractLsb' rfl
  have hassoc : w.extractLsb' 31 1 ++ rs1Of w ++ funct3Of w ++ w.extractLsb' 20 1 ++ w.extractLsb' 25 6 ++
      w.extractLsb' 21 4 = w.extractLsb' 31 1 ++ (rs1Of w ++ funct3Of w) ++ w.extractLsb' 20 1 ++
      (w.extractLsb' 25 6 ++ w.extractLsb' 21 4) := by
    simp only [BitVec.append_assoc, BitVec.cast_eq]
  rw [hsign, hbit11, hfunct7, hrs2, hassoc, hmid, hlow]
  rfl

/-- The J-type immediate of an assembled word, from the fields it was made of. -/
theorem immJ_toWord (f : Fields) (op : OpField) : immJ (f.toWord op) =
    (f.funct7.extractLsb 6 6 ++ f.rs1 ++ f.funct3 ++ f.rs2.extractLsb 0 0 ++ f.funct7.extractLsb 5 0 ++
      f.rs2.extractLsb 4 1 ++ 0#1).signExtend 32 := by
  rw [immJ_eq_fields, funct7Of_toWord, rs1Of_toWord, funct3Of_toWord, rs2Of_toWord]

end Sys2Proof
end

section
/-! The statements of 42_j_type.md. -/

namespace Sys2Proof

open Sys2Proof.Machine

/-- Settles O2: the record is the one of the instruction's own word, whose J-type immediate lies in the fields above
`rd`. -/
theorem jTypeCompletes : Obligations.JTypeCompletes := by
  intro f s
  rw [← immJ_toWord f 0x6F#7]
  exact exec_eq_record (.jal f) s

/-- Settles O9: the class of opcode 0x6F is JAL, the one class of the J format, whose immediate O40 gives bit by bit and
in range. -/
theorem jalWordRecord : Obligations.JalWordRecord := by
  intro s hop
  have hclass : classify (opfieldOf s.raw) = .JAL := congrArg classify hop
  have hreturns : Returns s s.out := returns_iff_eq_out.mpr rfl
  have hformat : formatOf s.out.opcode = some .J := congrArg formatOf hclass
  have himm : s.out.immediate = immJ s.raw := immediate_of_format hreturns hformat
  obtain ⟨hbits, -, -, hlow, hhigh⟩ := jImmediateBits s s.out hreturns hformat
  have hforced : ∀ i, 20 ≤ i → i < 32 → s.out.immediate.getLsbD i = s.raw.getLsbD 31 := by
    intro i hi hlt
    rw [hbits i hlt]
    simp (disch := omega) only [if_neg]
  exact decodesAs_iff.mpr ⟨hclass, himm, hbits 0 (by decide), hbits 11 (by decide), hforced, hlow, hhigh⟩

end Sys2Proof
end

section
/-! The B-type immediate in terms of the fields of its word. -/

namespace Sys2Proof

open Sys2Proof.Machine

/-! ### The B-type immediate (30_encoding.md R45) -/

/-- The four pieces of the B-type immediate lie in the fields `funct7` and `rd`, none across a border of the two. -/
theorem immB_eq_fields (w : Word) : immB w =
    ((funct7Of w).extractLsb 6 6 ++ (rdOf w).extractLsb 0 0 ++ (funct7Of w).extractLsb 5 0 ++
      (rdOf w).extractLsb 4 1 ++ 0#1).signExtend 32 := by
  have hsign : (funct7Of w).extractLsb 6 6 = w.extractLsb' 31 1 := extractLsb'_slice w (by decide)
  have hbit11 : (rdOf w).extractLsb 0 0 = w.extractLsb' 7 1 := extractLsb'_slice w (by decide)
  have hfunct7 : (funct7Of w).extractLsb 5 0 = w.extractLsb' 25 6 := extractLsb'_slice w (by decide)
  have hrd : (rdOf w).extractLsb 4 1 = w.extractLsb' 8 4 := extractLsb'_slice w (by decide)
  rw [hsign, hbit11, hfunct7, hrd]
  rfl

/-- The B-type immediate of an assembled word, from the fields it was made of. -/
theorem immB_toWord (f : Fields) (op : OpField) : immB (f.toWord op) =
    (f.funct7.extractLsb 6 6 ++ f.rd.extractLsb 0 0 ++ f.funct7.extractLsb 5 0 ++ f.rd.extractLsb 4 1 ++
      0#1).signExtend 32 := by
  rw [immB_eq_fields, funct7Of_toWord, rdOf_toWord]

end Sys2Proof
end

section
/-! The statements of 43_b_type.md. -/

namespace Sys2Proof

open Sys2Proof.Machine

/-- Settles O3: the record is the one of the instruction's own word, whose B-type immediate lies in `funct7` and `rd`. -/
theorem bTypeCompletes : Obligations.BTypeCompletes := by
  intro f s
  rw [← immB_toWord f 0x63#7]
  exact exec_eq_record (.branch f) s

/-- Settles O10: the class of opcode 0x63 is BRANCH, the one class of the B format. O41 gives its bits 0 and 11
and its range, and the sign-bit law (30_encoding.md R48) at the natural width 13 every bit from 12 up. -/
theorem branchWordRecord : Obligations.BranchWordRecord := by
  intro s hop
  have hclass : classify (opfieldOf s.raw) = .BRANCH := congrArg classify hop
  have hreturns : Returns s s.out := returns_iff_eq_out.mpr rfl
  have hformat : formatOf s.out.opcode = some .B := congrArg formatOf hclass
  have himm : s.out.immediate = immB s.raw := immediate_of_format hreturns hformat
  obtain ⟨hbits, -, -, hlow, hhigh⟩ := bImmediateBits s s.out hreturns hformat
  have hforced : ∀ i, 12 ≤ i → i < 32 → s.out.immediate.getLsbD i = s.raw.getLsbD 31 :=
    fun i hi hlt => immOf_forced s.out.opcode s.raw hformat rfl (Nat.succ_le_succ hi) hlt
  exact decodesAs_iff.mpr ⟨hclass, himm, hbits 0 (by decide), hbits 11 (by decide), hforced, hlow, hhigh⟩

end Sys2Proof
end

section
/-! The S-type immediate in terms of the fields of its word. -/

namespace Sys2Proof

open Sys2Proof.Machine

/-- A slice of the narrow value's bits is the same after sign extension. -/
theorem extractLsb'_signExtend {n : Nat} (x : BitVec n) {m lo len : Nat} (hn : lo + len ≤ n) (hm : lo + len ≤ m) :
    (x.signExtend m).extractLsb' lo len = x.extractLsb' lo len := by
  refine BitVec.eq_of_getLsbD_eq fun i hi => ?_
  have hnarrow : lo + i < n := by omega
  have hwide : lo + i < m := by omega
  simp only [BitVec.getLsbD_extractLsb', BitVec.getLsbD_signExtend, hnarrow, hwide, decide_true,
    Bool.true_and, if_true]

/-! ### The S-type immediate (30_encoding.md R46) -/

/-- The S-type immediate of an assembled word: its two pieces are the whole fields `funct7` and `rd`. -/
theorem immS_toWord (f : Fields) (op : OpField) : immS (f.toWord op) = (f.funct7 ++ f.rd).signExtend 32 :=
  calc immS (f.toWord op) = (funct7Of (f.toWord op) ++ rdOf (f.toWord op)).signExtend 32 := rfl
    _ = (f.funct7 ++ f.rd).signExtend 32 := by rw [funct7Of_toWord, rdOf_toWord]

/-- The low piece of the immediate is the `rd` field. -/
theorem extractLsb_immS_eq_rdOf (w : Word) : (immS w).extractLsb 4 0 = rdOf w :=
  calc (immS w).extractLsb 4 0 = (funct7Of w ++ rdOf w).extractLsb' 0 5 :=
        extractLsb'_signExtend _ (by decide) (by decide)
    _ = rdOf w := BitVec.extractLsb'_append_eq_right

/-- The high piece of the immediate is the `funct7` field. -/
theorem extractLsb_immS_eq_funct7Of (w : Word) : (immS w).extractLsb 11 5 = funct7Of w :=
  calc (immS w).extractLsb 11 5 = (funct7Of w ++ rdOf w).extractLsb' 5 7 :=
        extractLsb'_signExtend _ (by decide) (by decide)
    _ = funct7Of w := BitVec.extractLsb'_append_eq_left

end Sys2Proof
end

section
/-! The statements of 44_s_type.md. -/

namespace Sys2Proof

open Sys2Proof.Machine

/-- Settles O4: the record is the one of the instruction's own word, whose S-type immediate is made of `funct7` and
`rd`. -/
theorem sTypeCompletes : Obligations.STypeCompletes := by
  intro f s
  rw [← immS_toWord f 0x23#7]
  exact exec_eq_record (.store f) s

/-- Settles O11: the class of opcode 0x23 is STORE, the one class of the S format. Its two immediate pieces are the
`rd` and `funct7` outputs, the sign-bit law (30_encoding.md R48) at the natural width 12 gives every bit from 11 up, and
O42 the range. -/
theorem storeWordRecord : Obligations.StoreWordRecord := by
  intro s hop
  have hclass : classify (opfieldOf s.raw) = .STORE := congrArg classify hop
  have hreturns : Returns s s.out := returns_iff_eq_out.mpr rfl
  have hformat : formatOf s.out.opcode = some .S := congrArg formatOf hclass
  have himm : s.out.immediate = immS s.raw := immediate_of_format hreturns hformat
  have hrd : s.out.rd = s.out.immediate.extractLsb 4 0 := by
    rw [himm]
    exact (extractLsb_immS_eq_rdOf s.raw).symm
  have hfunct7 : s.out.funct7 = s.out.immediate.extractLsb 11 5 := by
    rw [himm]
    exact (extractLsb_immS_eq_funct7Of s.raw).symm
  have hforced : ∀ i, 11 ≤ i → i < 32 → s.out.immediate.getLsbD i = s.raw.getLsbD 31 :=
    fun i hi hlt => immOf_forced s.out.opcode s.raw hformat rfl (Nat.succ_le_succ hi) hlt
  obtain ⟨-, -, hlow, hhigh⟩ := sImmediateBits s s.out hreturns hformat
  exact decodesAs_iff.mpr ⟨hclass, himm, hrd, hfunct7, hforced, hlow, hhigh⟩

end Sys2Proof
end

section
/-! The I-type immediate in terms of the fields and of the slices of its word. -/

namespace Sys2Proof

open Sys2Proof.Machine

/-! ### The I-type immediate (30_encoding.md R47) -/

/-- The one piece of the I-type immediate is the fields `funct7` and `rs2`, which meet in raw[31:20]. -/
theorem immI_eq_fields (w : Word) : immI w = (funct7Of w ++ rs2Of w).signExtend 32 := by
  have hfields : funct7Of w ++ rs2Of w = w.extractLsb' 20 12 := BitVec.extractLsb'_append_extractLsb'_eq_extractLsb' rfl
  rw [immI, hfields]

/-- The I-type immediate of an assembled word, from the fields it was made of. -/
theorem immI_toWord (f : Fields) (op : OpField) : immI (f.toWord op) = (f.funct7 ++ f.rs2).signExtend 32 := by
  rw [immI_eq_fields, funct7Of_toWord, rs2Of_toWord]

/-- An instruction of an I-format class completes with the I-type immediate of its own fields, under whichever opcode. -/
theorem exec_eq_record_of_format_I {i : Instr} (hformat : formatOf i.opcodeClass = some .I) (s : State) :
    exec i s = .next { s with record := some (
      { raw := encode i, opcode := i.opcodeClass, rd := i.fields.rd, rs1 := i.fields.rs1, rs2 := i.fields.rs2,
        funct3 := i.fields.funct3, funct7 := i.fields.funct7,
        immediate := (i.fields.funct7 ++ i.fields.rs2).signExtend 32 }) } := by
  obtain ⟨op, hword⟩ := exists_encode_eq_toWord i
  have himm : immOf i.opcodeClass (encode i) = (i.fields.funct7 ++ i.fields.rs2).signExtend 32 :=
    calc immOf i.opcodeClass (encode i) = immI (encode i) := by
          rw [immOf_eq_immOfFormat, hformat]
          rfl
      _ = immI (i.fields.toWord op) := by rw [hword]
      _ = (i.fields.funct7 ++ i.fields.rs2).signExtend 32 := immI_toWord i.fields op
  rw [exec_eq_record, himm]

/-- A slice of the low 12 bits of the I-type immediate is the slice of the word 20 bits further up. -/
theorem extractLsb'_immI (w : Word) {lo len : Nat} (h : lo + len ≤ 12) :
    (immI w).extractLsb' lo len = w.extractLsb' (20 + lo) len :=
  calc (immI w).extractLsb' lo len = (w.extractLsb' 20 12).extractLsb' lo len :=
        extractLsb'_signExtend _ h (Nat.le_trans h (by decide))
    _ = w.extractLsb' (20 + lo) len := extractLsb'_slice w h

end Sys2Proof
end

section
/-! The statements of 45_i_type.md. -/

namespace Sys2Proof

open Sys2Proof.Machine

/-- Settles O5: the record is the one of the instruction's own word, whose I-type immediate is made of `funct7` and
`rs2` in each of the four classes of the I format. -/
theorem iTypeCompletes : Obligations.ITypeCompletes :=
  fun f s => ⟨exec_eq_record_of_format_I (i := .load f) rfl s, exec_eq_record_of_format_I (i := .jalr f) rfl s,
    exec_eq_record_of_format_I (i := .opImm f) rfl s, exec_eq_record_of_format_I (i := .system f) rfl s⟩

/-- Settles O12: the class of opcode 0x03 is LOAD, whose immediate is the I-type one. -/
theorem loadWordRecord : Obligations.LoadWordRecord :=
  fun _ hop => decodesAs_of_opcode hop rfl rfl

/-- Settles O13: the class of opcode 0x67 is JALR, whose I-type immediate keeps its bit 0, raw[20]. -/
theorem jalrWordRecord : Obligations.JalrWordRecord := by
  intro s hop
  have hbit0 : (immI s.raw).getLsbD 0 = s.raw.getLsbD 20 := getLsbD_immI s.raw (by decide)
  exact decodesAs_of_opcode hop rfl ⟨rfl, hbit0⟩

/-- Settles O14: the class of opcode 0x13 is OP_IMM, whose I-type immediate holds raw[24:20], the `rs2` output, below
raw[31:25], the `funct7` output. -/
theorem opImmWordRecord : Obligations.OpImmWordRecord := by
  intro s hop
  have hrs2 : (immI s.raw).extractLsb 4 0 = rs2Of s.raw := extractLsb'_immI s.raw (by decide)
  have hfunct7 : (immI s.raw).extractLsb 11 5 = funct7Of s.raw := extractLsb'_immI s.raw (by decide)
  exact decodesAs_of_opcode hop rfl ⟨rfl, hrs2, hfunct7⟩

/-- Settles O15: the class of opcode 0x73 is SYSTEM, whose I-type immediate holds the CSR number raw[31:20] in its low 12
bits. -/
theorem systemWordRecord : Obligations.SystemWordRecord := by
  intro s hop
  have hcsr : (immI s.raw).extractLsb 11 0 = s.raw.extractLsb 31 20 := extractLsb'_immI s.raw (by decide)
  exact decodesAs_of_opcode hop rfl ⟨rfl, hcsr⟩

end Sys2Proof
end

section
/-! The statements of 46_r_type_and_invalid.md. -/

namespace Sys2Proof

open Sys2Proof.Machine

/-- An `invalid` term completes with immediate 0 under any opcode field: its meaning does not ask whether the field is
known (log entry 12). -/
theorem exec_invalid_eq_record (opfield : OpField) (f : Fields) (s : State) :
    exec (.invalid opfield f) s = .next { s with record := some (
      { raw := f.toWord opfield, opcode := .INVALID, rd := f.rd, rs1 := f.rs1, rs2 := f.rs2, funct3 := f.funct3,
        funct7 := f.funct7, immediate := 0#32 }) } :=
  exec_eq_record (.invalid opfield f) s

/-- The ill-formed terms are the `invalid` ones that carry an opcode of the table. -/
theorem wf_invalid_eq_false_iff (opfield : OpField) (f : Fields) :
    (Instr.invalid opfield f).wf = false ↔ opfield ∈ knownOpcodes := by
  rw [Instr.wf, Bool.not_eq_false', List.contains_iff_mem]

/-- Settles O6: the record is the one of the instruction's own word, and neither class reads an immediate from it. -/
theorem noImmediateTypesComplete : Obligations.NoImmediateTypesComplete :=
  fun f s => ⟨exec_eq_record (.op f) s, fun opfield _ => exec_invalid_eq_record opfield f s⟩

/-- Settles O16: the class of opcode 0x33 is OP, whose immediate is 0 whatever the word. -/
theorem opWordRecord : Obligations.OpWordRecord :=
  fun _ hop => decodesAs_of_opcode hop rfl rfl

/-- Settles O17: the ten values left out are the known opcodes, and every word with another one is INVALID. -/
theorem invalidWordRecord : Obligations.InvalidWordRecord :=
  fun _ hunknown => decodesAs_invalid_of_not_mem hunknown

/-- Settles O57: a known opcode field is what makes an `invalid` ill-formed, and its meaning does not read it as one. -/
theorem illFormedInvalidCompletes : Obligations.IllFormedInvalidCompletes :=
  fun opfield f s hknown => ⟨(wf_invalid_eq_false_iff opfield f).mpr hknown, exec_invalid_eq_record opfield f s⟩

end Sys2Proof
end

section
/-! What a move of the machine can be and which records it keeps, said once; bytes under either byte order; and the
instruction of a word that is written out. -/

namespace Sys2Proof

open Sys2Proof.Machine

/-! ### Steps, moves and the records they keep -/

/-- `step` inverted: all that a next state can be. -/
theorem step_eq_next {s t : State} (h : Machine.step s = .next t) : t = s.deliver s.out := by
  simpa [step_eq] using h.symm

/-- All that a move can do: put another word on the input, or return the outputs to the caller. -/
theorem move_iff {s t : State} : Move s t ↔ (∃ w, t = s.present w) ∨ t = s.deliver s.out := by
  constructor
  · intro hmove
    cases hmove with
    | present w => exact .inl ⟨w, rfl⟩
    | step _ hstep => exact .inr (step_eq_next hstep)
  · rintro (⟨w, rfl⟩ | rfl)
    · exact .present s w
    · exact .step s _ (step_eq s)

/-- The block's function drives coherent records only: it passes the word through (10_state.md R16). -/
theorem coherent_decodedRecord (w : Word) : Coherent (decodedRecord w) :=
  congrArg decodedRecord (recordOf_raw _ _ w).symm

theorem coherent_out (s : State) : Coherent s.out := coherent_decodedRecord s.raw

/-- A caller to whom the outputs are returned holds the outputs, which the return leaves alone. -/
theorem holdsOutputs_deliver_out (s : State) : HoldsOutputs (s.deliver s.out) := by
  rw [HoldsOutputs, deliver_record, deliver_out]

/-! ### Bytes (92_eei_decisions.md D9, log entry 6) -/

/-- The four byte slices of a word, high byte first, are the word. -/
theorem append_byte_slices (w : Word) :
    w.extractLsb' 24 8 ++ w.extractLsb' 16 8 ++ w.extractLsb' 8 8 ++ w.extractLsb' 0 8 = w := by
  have hhalf : w.extractLsb' 24 8 ++ w.extractLsb' 16 8 = w.extractLsb' 16 16 :=
    BitVec.extractLsb'_append_extractLsb'_eq_extractLsb' rfl
  have hupper : w.extractLsb' 16 16 ++ w.extractLsb' 8 8 = w.extractLsb' 8 24 :=
    BitVec.extractLsb'_append_extractLsb'_eq_extractLsb' rfl
  have hwhole : w.extractLsb' 8 24 ++ w.extractLsb' 0 8 = w.extractLsb' 0 32 :=
    BitVec.extractLsb'_append_extractLsb'_eq_extractLsb' rfl
  rw [hhalf, hupper, hwhole, BitVec.extractLsb'_eq_self]

/-- Bytes written and read under one byte order give the word back, and with it its instruction. -/
theorem decodeBytes_bytesOfWord_append (order : ByteOrder) (w : Word) (rest : List Byte) :
    decodeBytes order (bytesOfWord order w ++ rest) = .ok (decode w, rest) := by
  cases order <;>
    simp only [bytesOfWord, List.cons_append, List.nil_append, decodeBytes, wordOfBytes, append_byte_slices]

/-- Four bytes or more are one instruction and the bytes after the fourth. -/
theorem exists_decodeBytes_eq_ok (order : ByteOrder) {bytes : List Byte} (h : 4 ≤ bytes.length) :
    ∃ i : Instr, decodeBytes order bytes = .ok (i, bytes.drop 4) := by
  match bytes, h with
  | b0 :: b1 :: b2 :: b3 :: _, _ => exact ⟨decode (wordOfBytes order b0 b1 b2 b3), rfl⟩

/-- Fewer than four bytes are refused. -/
theorem decodeBytes_eq_truncated (order : ByteOrder) {bytes : List Byte} (h : ¬ 4 ≤ bytes.length) :
    decodeBytes order bytes = .error .truncated := by
  match bytes, h with
  | [], _ | [_], _ | [_, _], _ | [_, _, _], _ => rfl
  | _ :: _ :: _ :: _ :: _, h => exact absurd (Nat.le_add_left 4 _) h

/-! ### Words written out -/

/-- The word the encoder writes for a well-formed instruction decodes to that instruction. -/
theorem decode_eq_of_encode_eq {i : Instr} {w : Word} (hwf : i.wf = true) (hword : encode i = w) : decode w = i := by
  rw [← hword, decode_encode hwf]

/-- The mret, sret and wfi words have the SYSTEM opcode, and in raw[31:20] the immediates that 60_exceptions.md gives
them. -/
theorem trapReturnAndWaitWords_opcode_immI :
    ∀ p ∈ [(0x30200073#32, 0x302#32), (0x10200073#32, 0x102#32), (0x10500073#32, 0x105#32)],
      p.1.extractLsb 6 0 = 0x73#7 ∧ immI p.1 = p.2 := by
  simp only [List.forall_mem_cons, List.not_mem_nil, false_imp_iff, implies_true, and_true]
  decide

end Sys2Proof
end

section
/-! The statements of 60_exceptions.md and 70_reset_and_hazards.md. -/

namespace Sys2Proof

open Sys2Proof.Machine

/-- Settles O30: the three words have the SYSTEM opcode, and the class's rule gives them no meaning of their own. -/
theorem trapReturnAndWaitWordsAreSystem : Obligations.TrapReturnAndWaitWordsAreSystem := by
  intro s p hp
  obtain ⟨hop, himm⟩ := trapReturnAndWaitWords_opcode_immI p hp
  exact decodesAs_of_opcode hop rfl himm

/-- Settles O23: by induction on the list, each call's record being a function of the word presented for it. -/
theorem recordsOfWordsIndependent : Obligations.RecordsOfWordsIndependent :=
  recordsOf_eq_map

/-- Settles O55: the outputs are a function of the input port, at reset as at any other time. -/
theorem resetOutputsAreDecoded : Obligations.ResetOutputsAreDecoded :=
  ⟨rfl, rfl, fun w => ⟨present_out _ w, returns_iff_eq_out.mpr (present_out _ w).symm⟩⟩

end Sys2Proof
end

section
/-! The statements on what every move keeps, on bytes, and on sample words. -/

namespace Sys2Proof

open Sys2Proof.Machine

/-- Settles O53: a step returns the outputs, and returning a record leaves both ports alone. -/
theorem everyStepSettles : Obligations.EveryStepSettles := by
  intro s t hstep
  rw [step_eq_next hstep]
  exact ⟨holdsOutputs_deliver_out s, deliver_raw s s.out⟩

/-- Settles O54: the outputs are coherent in every state. A new word leaves the caller's record, coherent by hypothesis;
a step replaces it by the outputs. -/
theorem outputsStayCoherent : Obligations.OutputsStayCoherent := by
  intro s t hheld hmove
  refine ⟨coherent_out t, fun d hd => ?_⟩
  obtain ⟨w, rfl⟩ | rfl := move_iff.mp hmove
  · rw [present_record] at hd
    exact hheld d hd
  · rw [deliver_record, Option.some.injEq] at hd
    rw [← hd]
    exact coherent_out s

/-- Settles O51: the four byte slices are the word under either order, and the front end asks for four bytes only. -/
theorem bytesDecodeUnderEitherOrder : Obligations.BytesDecodeUnderEitherOrder := by
  refine fun order => ⟨decodeBytes_bytesOfWord_append order, fun bytes => ?_⟩
  split
  case isTrue henough => exact exists_decodeBytes_eq_ok order henough
  case isFalse hfew => exact decodeBytes_eq_truncated order hfew

/-- Settles O52: each word is the one the encoder writes for its instruction. -/
theorem sampleWordsDecode : Obligations.SampleWordsDecode :=
  ⟨decode_eq_of_encode_eq rfl rfl, decode_eq_of_encode_eq rfl rfl, decode_eq_of_encode_eq rfl rfl,
    decode_eq_of_encode_eq rfl rfl, decode_eq_of_encode_eq rfl rfl, decode_eq_of_encode_eq rfl rfl,
    decode_eq_of_encode_eq rfl rfl⟩

end Sys2Proof
end
